-- ==== Sys2Proof/Word.lean ====
section
/-! DEFINITION. The two widths of the block: a byte of a buffer and the 32-bit word of a register (spec R7, R8). All
values are unsigned; sizes and derived lengths are `Nat`, which never wraps (R8, R74). -/

namespace Sys2Proof

/-- One byte of SRC or DST (R31, R32). -/
abbrev Byte := BitVec 8

/-- One MMIO register or command word (R7: "register width ... fixed: 32 bits"). -/
abbrev Word := BitVec 32

end Sys2Proof
end

