-- ==== Sys2Proof/Syntax.lean ====
section
/-! DEFINITION. The commands of the block: one constructor for each row of spec/opcode_table.json (R71). -/

namespace Sys2Proof

/-- A legal command (R70, R71, R75). `depth` is the raw DEPTH field, "a plain unsigned number, not an index" (R72), so
that an unsupported depth is a command too; `shrink` is bit 16, which only RESIZE has (R73). The other operands are
latched registers (R74) and no part of the word. -/
inductive Instr where
  /-- UNPACK (R103) -/
  | unpack (depth : Nat)
  /-- PACK (R106) -/
  | pack (depth : Nat)
  /-- UPSCALE (R121) -/
  | upscale (depth : Nat)
  /-- DOWNSCALE24 (R128) -/
  | downscale24 (depth : Nat)
  /-- RESIZE (R158) -/
  | resize (depth : Nat) (shrink : Bool)
  /-- FLIP (R145) -/
  | flip (depth : Nat)
deriving DecidableEq, Repr

end Sys2Proof
end

