-- ==== Sys2Proof/WellFormed.lean ====
section
/-! DEFINITION. When a command fits the word CMD32: the one operand that a term can hold too large is the 8-bit DEPTH
(R70: "`op < 16`, `d < 256` and `s < 2`"). -/

namespace Sys2Proof

/-- The raw DEPTH operand of a command (R72). -/
def Instr.depth : Instr → Nat
  | .unpack d => d
  | .pack d => d
  | .upscale d => d
  | .downscale24 d => d
  | .resize d _ => d
  | .flip d => d

/-- The SHRINK bit of a command; every command but RESIZE has it 0 (R73). -/
def Instr.shrink : Instr → Bool
  | .unpack _ => false
  | .pack _ => false
  | .upscale _ => false
  | .downscale24 _ => false
  | .resize _ s => s
  | .flip _ => false

/-- The command can be written as a CMD32 word: DEPTH fits its 8 bits (R70). -/
def Instr.wf (i : Instr) : Bool := decide (i.depth < 256)

end Sys2Proof
end

