-- ==== Sys2Proof/Decode.lean ====
section
/-! DEFINITION. The command word CMD32: its fields (R70), the decoder, which names why it rejects a word (R75, R76), the
encoder, and the opcode table's rows (R78). A command is exactly one 32-bit word, written with one 4-byte access (R77):
there is no byte stream to decode. -/

namespace Sys2Proof

/-- OP, bits [3:0] (R70). -/
def opField (w : Word) : Nat := (w.extractLsb' 0 4).toNat

/-- RSV0, bits [7:4] (R70). -/
def rsv0Field (w : Word) : Nat := (w.extractLsb' 4 4).toNat

/-- DEPTH, bits [15:8], unsigned (R70, R72). -/
def depthField (w : Word) : Nat := (w.extractLsb' 8 8).toNat

/-- SHRINK, bit 16 (R70, R73). -/
def shrinkField (w : Word) : Bool := w.getLsbD 16

/-- RSV1, bits [31:17] (R70). -/
def rsv1Field (w : Word) : Nat := (w.extractLsb' 17 15).toNat

/-- Why a word is no command (R76). Every one of these completes with IllegalCommand (R171); the names and the order
they are tried in are the model's (log 18). -/
inductive DecodeReject where
  /-- OP is 0x0 or 0x7 to 0xF -/
  | reservedOpcode
  /-- a bit of RSV0 is set -/
  | reservedLowBits
  /-- a bit of RSV1 is set -/
  | reservedHighBits
  /-- SHRINK = 1 with an opcode other than RESIZE -/
  | shrinkOutsideResize
deriving DecidableEq, Repr

/-- What the decoder says of a word. -/
inductive Decoded where
  | command (i : Instr)
  | rejected (why : DecodeReject)
deriving DecidableEq, Repr

/-- A word whose reserved bits are 0 and whose opcode is not RESIZE: legal only with SHRINK = 0 (R73, R75). -/
def withoutShrink (s : Bool) (i : Instr) : Decoded :=
  if s then .rejected .shrinkOutsideResize else .command i

/-- The opcode map (R71), for a word whose RSV0 and RSV1 are 0. -/
def decodeOp (op d : Nat) (s : Bool) : Decoded :=
  match op with
  | 1 => withoutShrink s (.unpack d)
  | 2 => withoutShrink s (.pack d)
  | 3 => withoutShrink s (.upscale d)
  | 4 => withoutShrink s (.downscale24 d)
  | 5 => .command (.resize d s)
  | 6 => withoutShrink s (.flip d)
  | _ => .rejected .reservedOpcode

/-- The decoder: a command exactly when the word is legal (R75), else the reason. DEPTH plays no part in it: "A legal
word with an unsupported DEPTH is not illegal" (R75). -/
def decode (w : Word) : Decoded :=
  if rsv0Field w ≠ 0 then .rejected .reservedLowBits
  else if rsv1Field w ≠ 0 then .rejected .reservedHighBits
  else decodeOp (opField w) (depthField w) (shrinkField w)

/-- `word(op, d, s) = op | (d << 8) | (s << 16)` (R70). -/
def commandWord (op d : Nat) (s : Bool) : Word :=
  BitVec.ofNat 32 (op ||| d <<< 8 ||| s.toNat <<< 16)

/-- The opcode of a command (R71). -/
def Instr.opcode : Instr → Nat
  | .unpack _ => 1
  | .pack _ => 2
  | .upscale _ => 3
  | .downscale24 _ => 4
  | .resize _ _ => 5
  | .flip _ => 6

/-- The encoder: the word of a command (R78). -/
def encode (i : Instr) : Word := commandWord i.opcode i.depth i.shrink

/-- One row of the opcode table: the words `w` with `w AND mask = pattern` (R78). -/
structure OpcodeRow where
  mnemonic : String
  opcode : Nat
  mask : Word
  pattern : Word
deriving DecidableEq, Repr

/-- The opcode table (R78: "For every row except RESIZE the mask is 0xFFFF_00FF with match `op`. For RESIZE it is
0xFFFE_00FF with match 0x0000_0005"). -/
def opcodeRows : List OpcodeRow :=
  [ ⟨"UNPACK", 1, 0xFFFF00FF#32, 1#32⟩,
    ⟨"PACK", 2, 0xFFFF00FF#32, 2#32⟩,
    ⟨"UPSCALE", 3, 0xFFFF00FF#32, 3#32⟩,
    ⟨"DOWNSCALE24", 4, 0xFFFF00FF#32, 4#32⟩,
    ⟨"RESIZE", 5, 0xFFFE00FF#32, 5#32⟩,
    ⟨"FLIP", 6, 0xFFFF00FF#32, 6#32⟩ ]

/-- The word belongs to the row. -/
def OpcodeRow.covers (r : OpcodeRow) (w : Word) : Bool := w &&& r.mask == r.pattern

/-- The command the decoder reads from a table row's bits: bit 0 is the least significant bit of the one word, every
bit from `nbits` up is 0, and a word of more than 32 bits is no command (R77). -/
def decodeTableWord (nbits w : Nat) : Option Instr :=
  let bits := w % 2 ^ nbits
  if bits < 2 ^ 32 then
    match decode (BitVec.ofNat 32 bits) with
    | .command i => some i
    | .rejected _ => none
  else none

end Sys2Proof
end

