-- ==== Sys2Proof/Config.lean ====
section
/-! DEFINITION. What one implementation fixes (the OPEN parameters of R7) and the free byte values. Nothing here that is `opaque` has a value a proof can see: a claim holds whatever it is. -/

namespace Sys2Proof

/-- Behind SRC_CAP: an implementation's choice, without a value (R7, log 4). -/
opaque Config.srcCapChoice : Nat

/-- Behind DST_CAP: an implementation's choice, without a value (R7, log 4). -/
opaque Config.dstCapChoice : Nat

/-- SRC_CAP, OPEN with 1 <= SRC_CAP <= 2^20 (R7): every value of that range, and no other, is a possible one. -/
def Config.srcCap : Nat := Config.srcCapChoice % 2 ^ 20 + 1

/-- DST_CAP, OPEN with 1 <= DST_CAP <= 2^20 (R7). -/
def Config.dstCap : Nat := Config.dstCapChoice % 2 ^ 20 + 1

/-- Behind BASE: which 4 MiB slot of the host's address space the platform gives the block (R7, R50, log 5). -/
opaque Config.baseIndex : Nat

/-- BASE, "OPEN; a multiple of 0x40_0000" (R7). -/
def Config.base : Nat := Config.baseIndex * 0x400000

/-- FREE VALUE: the byte that draw number `draw` gives at buffer index `i` ("any value: a draw", R153, R192, R197;
log 2). No law governs it. -/
opaque Config.freeByte (draw i : Nat) : Byte

end Sys2Proof
end

