-- ==== Sys2Proof/Machine/State.lean ====
section
/-! DEFINITION. The state of the block as plain data: its registers (R21 to R29), its buffers (R31, R32), the engine and
its command latch (R20, R33), the reset input (R190), and three fields of the model's own: what is still to happen at
the block's boundary (log 1), the bus response to the last host access (R55, log 10) and the number of free draws made
(log 2). -/

namespace Sys2Proof.Machine

/-- CTRL.RND, the rounding policy of the box filter (R22). The reserved value 3 can never be held: a write of it leaves
the field at its previous value. -/
inductive Rounding where
  | truncate
  | halfUp
  | halfEven
deriving DecidableEq, Repr

/-- CTRL.PTAIL, the policy for a partial trailing group in PACK (R22). The reserved value 3 can never be held. -/
inductive TailPolicy where
  | error
  | zeroPad
  | drop
deriving DecidableEq, Repr

/-- CTRL (R22): the two fields that exist; bits [31:4] "read 0, writes ignored". -/
structure Ctrl where
  rnd : Rounding
  ptail : TailPolicy
deriving DecidableEq, Repr

/-- The error kinds of R170. -/
inductive ErrorKind where
  /-- code 1 (R172) -/
  | unsupportedBitDepth
  /-- code 2 (R173) -/
  | unsupportedOperation
  /-- code 3 (R174) -/
  | malformedBuffer
  /-- code 4 (R171) -/
  | illegalCommand
  /-- code 5 (R175) -/
  | badFactor
  /-- code 6 (R176) -/
  | bufferOverflow
deriving DecidableEq, Repr

/-- The outcome of a command's pure function: `Ok(out) | Err(kind)` (R11). -/
inductive Result where
  | ok (out : List Byte)
  | err (k : ErrorKind)
deriving DecidableEq, Repr

/-- The command latch `L` (R33). -/
structure Latch where
  cmd : Word
  ctrl : Ctrl
  srclen : Word
  factor : Word
  width : Word
deriving DecidableEq, Repr

/-- `eng`: Idle or Busy(L) (R20). -/
inductive Engine where
  | idle
  | busy (l : Latch)
deriving DecidableEq, Repr

/-- A buffer: the bytes written since draw number `draw` was made over the whole of it, addresses strictly rising; an
index not listed holds that draw's free byte (R192, R153; log 2). -/
structure Memory where
  draw : Nat
  cells : List Host.Cell
deriving DecidableEq, Repr

/-- One thing that happens at the block's boundary (R20, R52, R190). Their order is open, so it is data (log 1). -/
inductive Turn where
  /-- the engine may make its step -/
  | engine
  /-- the reset input takes this level -/
  | reset (asserted : Bool)
  /-- the host's `MemRead(a, n)` at offset `a` -/
  | read (a n : Nat)
  /-- the host's `MemWrite(a, n, v)` at offset `a` -/
  | write (a n : Nat) (v : Word)
deriving DecidableEq, Repr

/-- What the bus answers to a host access (R55, R56; log 10). -/
inductive Response where
  /-- a read's `8n`-bit value, zero-extended -/
  | data (v : Word)
  /-- a write was taken: stored, ignored or dropped -/
  | written
  /-- BusError: no data, no state change (R55) -/
  | busError
deriving DecidableEq, Repr

/-- The block. STATUS.BUSY is `eng`, STATUS.ERR is `err` (`none` is code 0), ID is a constant: each is computed where a
register is read (log 6). -/
structure State where
  /-- `eng` (R20) with the latch (R33) -/
  eng : Engine
  /-- CTRL (R22) -/
  ctrl : Ctrl
  /-- CMD (R23) -/
  cmd : Word
  /-- SRC_LEN (R25) -/
  srcLen : Word
  /-- FACTOR (R26) -/
  factor : Word
  /-- WIDTH (R27) -/
  width : Word
  /-- DST_LEN (R28) -/
  dstLen : Word
  /-- STATUS.DONE (R24) -/
  done : Bool
  /-- STATUS.ERR (R24, R170) -/
  err : Option ErrorKind
  /-- STATUS.WBUSY (R24) -/
  wbusy : Bool
  /-- SRC_CAPR, which reads SRC_CAP (R29) -/
  srcCapr : Word
  /-- DST_CAPR, which reads DST_CAP (R29) -/
  dstCapr : Word
  /-- SRC (R31) -/
  src : Memory
  /-- DST (R32) -/
  dst : Memory
  /-- the level of the reset input `rst` (R190) -/
  rst : Bool
  /-- the model's own: what is still to happen, oldest first (log 1) -/
  turns : List Turn
  /-- the model's own: the response to the last host access served (log 10) -/
  resp : Option Response
  /-- the model's own: how many draws of free bytes have been made (log 2) -/
  draws : Nat
deriving DecidableEq, Repr

/-- What stops the model although no trap exists in the block (R182). -/
inductive Fault where
  /-- A host access at an offset outside the 4 MiB region, which the block does not decode (R50). Raised by the host
  accesses. Safe (log 7). -/
  | outsideRegion
  /-- A command's completion where no command is in flight: the engine has no step in Idle (R20). Raised by a meaning
  applied to an Idle engine, never by `step`. Safe (log 12). -/
  | engineIdle
deriving DecidableEq, Repr

/-- What the model gives no meaning. -/
inductive Refusal where
  /-- A command without a meaning; no arm of `exec` answers it. Safe. -/
  | notModelled (mnemonic : String)
  /-- A host access while `rst` is asserted: "host accesses get no response defined by this spec" (R190). Raised by the
  host accesses. Safe (log 8). -/
  | accessDuringReset
deriving DecidableEq, Repr

/-- CTRL after reset: RND = HALF_UP, PTAIL = ERROR (R37). -/
def Ctrl.reset : Ctrl := { rnd := .halfUp, ptail := .error }

/-- The block right after reset (R37, R190): every register at its reset value, `rst` released, both buffers holding any
value. Nothing is waiting at the boundary, no access has been answered, and two draws have been made, one for each
buffer (DESIGN CHOICE, log 3 and log 9). -/
def State.reset : State where
  eng := .idle
  ctrl := Ctrl.reset
  cmd := 0#32
  srcLen := 0#32
  factor := 1#32
  width := 1#32
  dstLen := 0#32
  done := false
  err := none
  wbusy := false
  srcCapr := BitVec.ofNat 32 Config.srcCap
  dstCapr := BitVec.ofNat 32 Config.dstCap
  src := { draw := 0, cells := [] }
  dst := { draw := 1, cells := [] }
  rst := false
  turns := []
  resp := none
  draws := 2

end Sys2Proof.Machine
end

