-- ==== Sys2Proof/Machine/Operands.lean ====
section
/-! DEFINITION. The operands of commands and of host accesses: the depth selection (R155), the CTRL fields and their
write-any-read-legal rule (R22), the latched operands (R74), the register map (R21 to R30) and the address map (R50). -/

namespace Sys2Proof.Machine

/-! ### Depth -/

/-- BitDepth, "one of a closed set {1, 4, 8, 24}" (R72): the select of the depth multiplexer (R155). -/
inductive Depth where
  | d1
  | d4
  | d8
  | d24
deriving DecidableEq, Repr

/-- The depth a raw DEPTH value selects; `none` for an unsupported one (R72). -/
def Depth.ofRaw (raw : Nat) : Option Depth :=
  match raw with
  | 1 => some .d1
  | 4 => some .d4
  | 8 => some .d8
  | 24 => some .d24
  | _ => none

/-- Bits per pixel. -/
def Depth.bits : Depth → Nat
  | .d1 => 1
  | .d4 => 4
  | .d8 => 8
  | .d24 => 24

/-! ### CTRL -/

/-- The policy of a RND value; 3 is reserved (R22). -/
def Rounding.ofField (v : Nat) : Option Rounding :=
  match v with
  | 0 => some .truncate
  | 1 => some .halfUp
  | 2 => some .halfEven
  | _ => none

/-- The RND value of a policy (R22). -/
def Rounding.field : Rounding → Nat
  | .truncate => 0
  | .halfUp => 1
  | .halfEven => 2

/-- The policy of a PTAIL value; 3 is reserved (R22). -/
def TailPolicy.ofField (v : Nat) : Option TailPolicy :=
  match v with
  | 0 => some .error
  | 1 => some .zeroPad
  | 2 => some .drop
  | _ => none

/-- The PTAIL value of a policy (R22). -/
def TailPolicy.field : TailPolicy → Nat
  | .error => 0
  | .zeroPad => 1
  | .drop => 2

/-- CTRL as the 32-bit word a host reads: RND at [1:0], PTAIL at [3:2], the rest 0 (R22). -/
def Ctrl.word (c : Ctrl) : Word := BitVec.ofNat 32 (c.rnd.field + 4 * c.ptail.field)

/-- A write of CTRL: a field written with the reserved value 3 keeps its previous value, "The other field of the same
write is still updated" (R22). -/
def Ctrl.write (c : Ctrl) (v : Word) : Ctrl :=
  { rnd := (Rounding.ofField (v.extractLsb' 0 2).toNat).getD c.rnd
    ptail := (TailPolicy.ofField (v.extractLsb' 2 2).toNat).getD c.ptail }

/-! ### Latched operands (R74): unsigned, as mathematical integers -/

/-- `srclen`, a byte count. -/
def Latch.sourceLength (l : Latch) : Nat := l.srclen.toNat

/-- `n`, the ResizeFactor. -/
def Latch.scale (l : Latch) : Nat := l.factor.toNat

/-- `W`, pixels per row. -/
def Latch.rowPixels (l : Latch) : Nat := l.width.toNat

/-- SRC_CAP, as SRC_CAPR holds it (R29). -/
def State.srcCap (s : State) : Nat := s.srcCapr.toNat

/-- DST_CAP, as DST_CAPR holds it (R29). -/
def State.dstCap (s : State) : Nat := s.dstCapr.toNat

/-! ### Register map -/

/-- The constant of the ID register (R21). -/
def idValue : Word := 0x424D0001#32

/-- The registers of the register page (R21 to R29). -/
inductive Reg where
  | id
  | ctrl
  | cmd
  | status
  | srcLen
  | factor
  | width
  | dstLen
  | srcCapr
  | dstCapr
deriving DecidableEq, Repr

/-- A register's offset (section 2 of 10_state.md). -/
def Reg.offset : Reg → Nat
  | .id => 0x00
  | .ctrl => 0x04
  | .cmd => 0x08
  | .status => 0x0C
  | .srcLen => 0x10
  | .factor => 0x14
  | .width => 0x18
  | .dstLen => 0x1C
  | .srcCapr => 0x20
  | .dstCapr => 0x24

/-- The register at an offset of the register page; `none` for a reserved offset (R30). -/
def Reg.atOffset (a : Nat) : Option Reg :=
  match a with
  | 0x00 => some .id
  | 0x04 => some .ctrl
  | 0x08 => some .cmd
  | 0x0C => some .status
  | 0x10 => some .srcLen
  | 0x14 => some .factor
  | 0x18 => some .width
  | 0x1C => some .dstLen
  | 0x20 => some .srcCapr
  | 0x24 => some .dstCapr
  | _ => none

/-! ### Address map -/

/-- What the block decodes at an offset of its region (R50). -/
inductive Place where
  /-- the register page, at this offset -/
  | page (a : Nat)
  /-- the SRC window, at this window-relative offset -/
  | src (i : Nat)
  /-- the DST window, at this window-relative offset -/
  | dst (i : Nat)
  /-- the reserved range 0x30_0000 to 0x3F_FFFF -/
  | reserved
deriving DecidableEq, Repr

/-- The address map (R50); `none` outside the 4 MiB region (log 7). -/
def placeOf (a : Nat) : Option Place :=
  if a < 0x100000 then some (.page a)
  else if a < 0x200000 then some (.src (a - 0x100000))
  else if a < 0x300000 then some (.dst (a - 0x200000))
  else if a < 0x400000 then some .reserved
  else none

/-- The offset of a host physical address: "The block decodes a 4 MiB region from `BASE` to `BASE + 0x3F_FFFF`" (R50);
`none` for an address of another device (log 5). -/
def offsetOf (physical : Nat) : Option Nat :=
  if Config.base ≤ physical ∧ physical < Config.base + 0x400000 then some (physical - Config.base) else none

/-- Which accesses are legal at a place (R51 to R54): 1, 2 or 4 bytes, naturally aligned, 4 bytes only in the register
page, inside the capacity in a window. -/
def accessLegal (s : State) (p : Place) (a n : Nat) : Bool :=
  (n == 1 || n == 2 || n == 4) && a % n == 0 &&
  match p with
  | .page _ => n == 4
  | .src i => decide (i + n ≤ s.srcCap)
  | .dst i => decide (i + n ≤ s.dstCap)
  | .reserved => true

end Sys2Proof.Machine
end

