-- ==== Sys2Proof/Machine/Flags.lean ====
section
/-! DEFINITION. STATUS: the error codes (R170), the word a host reads (R24, R35), the write-1-to-clear rule (R24) and the
`done` output (R36). -/

namespace Sys2Proof.Machine

/-- The code of an error kind (R170). -/
def ErrorKind.code : ErrorKind → Nat
  | .unsupportedBitDepth => 1
  | .unsupportedOperation => 2
  | .malformedBuffer => 3
  | .illegalCommand => 4
  | .badFactor => 5
  | .bufferOverflow => 6

/-- STATUS.ERR: the code of the last completed command, 0 for none (R24, R170). -/
def State.errCode (s : State) : Nat :=
  match s.err with
  | none => 0
  | some k => k.code

/-- STATUS.BUSY: "1 while the engine is `Busy`" (R24). -/
def State.isBusy (s : State) : Bool :=
  match s.eng with
  | .idle => false
  | .busy _ => true

/-- STATUS as the 32-bit word a host reads: BUSY at [0], DONE at [1], ERR at [7:4], WBUSY at [8], the rest 0 (R24). -/
def State.statusWord (s : State) : Word :=
  BitVec.ofNat 32 (s.isBusy.toNat + 2 * s.done.toNat + 16 * s.errCode + 256 * s.wbusy.toNat)

/-- A write of STATUS clears DONE and WBUSY where it writes 1, and does nothing else, Busy or not (R24). -/
def State.clearStatus (s : State) (v : Word) : State :=
  { s with done := s.done && !v.getLsbD 1, wbusy := s.wbusy && !v.getLsbD 8 }

/-- The output signal `done`, "at the level of STATUS.DONE" (R36). -/
def State.doneOutput (s : State) : Bool := s.done

end Sys2Proof.Machine
end

