-- ==== Sys2Proof/Machine/Ops.lean ====
section
/-! DEFINITION. The named operations every part of the machine goes through: the buffers' bytes (R31, R32, R56), the
acceptance of a command (R151), its completion, with or without an error (R153), the common checks (R154), and reset
(R190). The block takes no trap (R182): the error completion `completeErr` is the one operation by which a command's
error is reported. -/

namespace Sys2Proof.Machine

/-! ### Buffers -/

/-- The byte listed at an index. -/
def cellAt : List Host.Cell → Nat → Option Byte
  | [], _ => none
  | (j, b) :: rest, i => if j = i then some b else cellAt rest i

/-- The list with one byte listed, addresses kept strictly rising. -/
def putCell : List Host.Cell → Nat → Byte → List Host.Cell
  | [], i, v => [(i, v)]
  | (j, b) :: rest, i, v =>
    if i < j then (i, v) :: (j, b) :: rest
    else if i = j then (i, v) :: rest
    else (j, b) :: putCell rest i v

/-- What an index holds that nothing was written to since the buffer's draw: "any value" (R192, R153; log 2). -/
def Memory.unlisted (m : Memory) (i : Nat) : Byte := Config.freeByte m.draw i

/-- `B[i]`: the read of one byte (R10). -/
def Memory.read (m : Memory) (i : Nat) : Byte := (cellAt m.cells i).getD (m.unlisted i)

/-- `B[i] <- v`: the write of one byte (R10). -/
def Memory.write (m : Memory) (i : Nat) (v : Byte) : Memory := { m with cells := putCell m.cells i v }

/-- `B[i..i+n)` (R9). -/
def Memory.load (m : Memory) (i : Nat) : Nat → List Byte
  | 0 => []
  | n + 1 => m.read i :: Memory.load m (i + 1) n

/-- `B[i+k] <- bytes[k]` for every k. -/
def Memory.store (m : Memory) (i : Nat) : List Byte → Memory
  | [] => m
  | b :: bs => Memory.store (m.write i b) (i + 1) bs

/-- A buffer every byte of which takes any value: draw number `draw` (R153, R192). -/
def Memory.drawn (draw : Nat) : Memory := { draw := draw, cells := [] }

/-- The canonical form: listed addresses strictly rising, all below the capacity. A listed byte was written and an
unlisted one is drawn, so no entry is what an unlisted address holds (log 2). -/
abbrev Memory.wf (m : Memory) (cap : Nat) : Prop :=
  m.cells.Pairwise (fun a b => a.1 < b.1) ∧ ∀ c ∈ m.cells, c.1 < cap

/-- The value of bytes in little-endian order: `sum_k B[i+k] << (8*k)` (R56). -/
def littleEndian : List Byte → Nat
  | [] => 0
  | b :: bs => b.toNat + 256 * littleEndian bs

/-- The bytes `v[8k+7 : 8k]` for k below n (R56). -/
def bytesOf (n : Nat) (v : Word) : List Byte := (List.range n).map (fun k => v.extractLsb' (8 * k) 8)

/-- `n` free bytes for a read of the DST window at index `i` while Busy (R197, log 17). -/
def drawBytes (draw i n : Nat) : List Byte := (List.range n).map (fun k => Config.freeByte draw (i + k))

/-! ### The life of a command -/

/-- The operands a command would run with if its word were accepted now (R33, R151). -/
def State.capture (s : State) (w : Word) : Latch :=
  { cmd := w, ctrl := s.ctrl, srclen := s.srcLen, factor := s.factor, width := s.width }

/-- Acceptance (R151): "Every word is accepted, legal or not". -/
def State.accept (s : State) (w : Word) : State :=
  { s with
    cmd := w
    eng := .busy (s.capture w)
    done := false
    err := none
    dstLen := 0#32 }

/-- A host write dropped while Busy: nothing changes but WBUSY, which is set (R196). -/
def State.dropWrite (s : State) : State := { s with wbusy := true }

/-- Completion with a result (R153, Ok arm): DST[0..len(out)) takes the result, the bytes past it are kept. -/
def State.completeOk (s : State) (out : List Byte) : State :=
  { s with
    dst := s.dst.store 0 out
    dstLen := BitVec.ofNat 32 out.length
    err := none
    done := true
    eng := .idle }

/-- Completion with an error (R153, Err arm; R177): every byte of DST takes any value, DST_LEN is 0, ERR is the code. -/
def State.completeErr (s : State) (k : ErrorKind) : State :=
  { s with
    dst := Memory.drawn s.draws
    draws := s.draws + 1
    dstLen := 0#32
    err := some k
    done := true
    eng := .idle }

/-- Completion (R153). -/
def State.complete (s : State) (r : Result) : State :=
  match r with
  | .ok out => s.completeOk out
  | .err k => s.completeErr k

/-- The source bytes `S = SRC[0..L.srclen)`; "SRC is read only if L.srclen <= SRC_CAP" (R153, R59). -/
def State.source (s : State) (l : Latch) : List Byte :=
  if l.sourceLength > s.srcCap then [] else s.src.load 0 l.sourceLength

/-- The engine's one step for a command whose pure function is `run` (R11, R153): `run SRC_CAP DST_CAP L S`. It is
enabled only in `Busy(L)` (R20); applied to an Idle engine it is stuck (log 12). -/
def completeCommand (run : Nat → Nat → Latch → List Byte → Result) (s : State) :
    Host.Outcome State Fault Refusal :=
  match s.eng with
  | .idle => .fault .engineIdle
  | .busy l => .next (s.complete (run s.srcCap s.dstCap l (s.source l)))

/-- The pure function of every word that is no command: IllegalCommand (R154, R156, R171). -/
def illegalCommand (_srcCap _dstCap : Nat) (_l : Latch) (_src : List Byte) : Result := .err .illegalCommand

/-- The completion of an illegal word (R171): "CMD keeps the word, and ERR = 4". -/
def completeIllegal (s : State) : Host.Outcome State Fault Refusal := completeCommand illegalCommand s

/-! ### The checks every command makes -/

/-- `Common(L)` after the legality of the word, which the decoder has settled (R154, log 13): the depth, the operation's
depth, the factor, the source length, in this order. `needs24` is "op == 0x4 || (op == 0x5 && s == 1)", `scales` is
"op in {0x3, 0x4, 0x5}". -/
def common (needs24 scales : Bool) (depth srcCap : Nat) (l : Latch) : Except ErrorKind Depth :=
  match Depth.ofRaw depth with
  | none => .error .unsupportedBitDepth
  | some d =>
    if needs24 = true ∧ d ≠ .d24 then .error .unsupportedOperation
    else if scales = true ∧ l.scale = 0 then .error .badFactor
    else if l.sourceLength > srcCap then .error .malformedBuffer
    else .ok d

/-- A command's law runs only after its common checks have passed, at the depth they selected (R154, R155). -/
def afterCommon (c : Except ErrorKind Depth) (law : Depth → Result) : Result :=
  match c with
  | .error k => .err k
  | .ok d => law d

/-- "depth is 24 and `len(S)` is not a multiple of 3" (R174). -/
def brokenTriples (d : Depth) (src : List Byte) : Bool := d == .d24 && src.length % 3 != 0

/-- "if len(out) > DST_CAP: raise BufferOverflow" (R176): the result where it fits DST. -/
def fitting (dstCap : Nat) (r : Result) : Result :=
  match r with
  | .err k => .err k
  | .ok out => if out.length > dstCap then .err .bufferOverflow else .ok out

/-! ### Reset -/

/-- Every piece of the block's state takes its reset value, with the reset input at `level` (R37, R190). The capacities
are constants (R37); both buffers are drawn anew (R192). A command in flight is abandoned (R191). The boundary's order
of events is the host's and stays; no response is outstanding (log 9). -/
def State.applyReset (s : State) (level : Bool) : State :=
  { State.reset with
    srcCapr := s.srcCapr
    dstCapr := s.dstCapr
    src := Memory.drawn s.draws
    dst := Memory.drawn (s.draws + 1)
    draws := s.draws + 2
    rst := level
    turns := s.turns }

/-- The reset input takes a level (R190): asserting it resets, releasing it resets once more, and a release of an input
that is not asserted changes nothing (log 9). -/
def State.driveReset (s : State) (level : Bool) : State :=
  if level = false ∧ s.rst = false then s else s.applyReset level

/-- The list of turns without the one being taken. -/
def State.withTurns (s : State) (ts : List Turn) : State := { s with turns := ts }

/-- A response to the host's access (R55, R56). -/
def State.respond (s : State) (r : Response) : State := { s with resp := some r }

/-- The word of the command in flight, which takes the place of an instruction fetch (R63). -/
def State.commandInFlight (s : State) : Option Word :=
  match s.eng with
  | .idle => none
  | .busy l => some l.cmd

/-- The state in which the very next step runs the command word `w`: `w` accepted (R151) with `rst` released, and the
engine's turn next (log 11). -/
def State.placeCommand (s : State) (w : Word) : State :=
  { s.accept w with rst := false, turns := .engine :: s.turns }

end Sys2Proof.Machine
end

