-- ==== Sys2Proof/Machine/Bus.lean ====
section
/-! DEFINITION. The host's accesses (R52 to R58, R196, R197): each is one atomic step, answered with data, with
"written", or with BusError, which changes no state of the block (R55). -/

namespace Sys2Proof.Machine

/-- What a 4-byte read of the register page returns (R21 to R30); reserved offsets read zero. -/
def readRegister (s : State) (r : Option Reg) : Word :=
  match r with
  | some .id => idValue
  | some .ctrl => s.ctrl.word
  | some .cmd => s.cmd
  | some .status => s.statusWord
  | some .srcLen => s.srcLen
  | some .factor => s.factor
  | some .width => s.width
  | some .dstLen => s.dstLen
  | some .srcCapr => s.srcCapr
  | some .dstCapr => s.dstCapr
  | none => 0#32

/-- A write that the Busy engine drops (R196). -/
def unlessBusy (s : State) (stored : State) : State := if s.isBusy then s.dropWrite else stored

/-- What a 4-byte write of the register page does (R21 to R30, R196). A write to STATUS is performed even while Busy; a
write to a read-only register or a reserved offset is ignored, even while Busy. -/
def writeRegister (s : State) (r : Option Reg) (v : Word) : State :=
  match r with
  | some .id => s
  | some .ctrl => unlessBusy s { s with ctrl := s.ctrl.write v }
  | some .cmd => unlessBusy s (s.accept v)
  | some .status => s.clearStatus v
  | some .srcLen => unlessBusy s { s with srcLen := v }
  | some .factor => unlessBusy s { s with factor := v }
  | some .width => unlessBusy s { s with width := v }
  | some .dstLen => s
  | some .srcCapr => s
  | some .dstCapr => s
  | none => s

/-- The value of a window read of `n` bytes, little-endian (R56). -/
def windowWord (bytes : List Byte) : Word := BitVec.ofNat 32 (littleEndian bytes)

/-- A legal read of `n` bytes (R54, R56, R197). A read of DST while Busy returns any value, drawn for each byte read. -/
def serveRead (s : State) (p : Place) (n : Nat) : State :=
  match p with
  | .page a => s.respond (.data (readRegister s (Reg.atOffset a)))
  | .src i => s.respond (.data (windowWord (s.src.load i n)))
  | .dst i =>
    if s.isBusy then
      { s with draws := s.draws + 1 }.respond (.data (windowWord (drawBytes s.draws i n)))
    else s.respond (.data (windowWord (s.dst.load i n)))
  | .reserved => s.respond (.data 0#32)

/-- A legal write of the low `n` bytes of `v` (R54, R56, R196). -/
def serveWrite (s : State) (p : Place) (n : Nat) (v : Word) : State :=
  match p with
  | .page a => (writeRegister s (Reg.atOffset a) v).respond .written
  | .src i => (unlessBusy s { s with src := s.src.store i (bytesOf n v) }).respond .written
  | .dst i => (unlessBusy s { s with dst := s.dst.store i (bytesOf n v) }).respond .written
  | .reserved => s.respond .written

/-- One host access: refused while `rst` is asserted (R190, log 8), no access of the block's outside its region (log 7),
BusError where it is not legal (R52, R55), served otherwise. -/
def hostAccess (a n : Nat) (serve : Place → State) (s : State) : Host.Outcome State Fault Refusal :=
  if s.rst then .refused .accessDuringReset
  else
    match placeOf a with
    | none => .fault .outsideRegion
    | some p => if accessLegal s p a n then .next (serve p) else .next (s.respond .busError)

/-- `MemRead(a, n)` (R52). -/
def hostRead (a n : Nat) (s : State) : Host.Outcome State Fault Refusal :=
  hostAccess a n (fun p => serveRead s p n) s

/-- `MemWrite(a, n, v)` (R52). -/
def hostWrite (a n : Nat) (v : Word) (s : State) : Host.Outcome State Fault Refusal :=
  hostAccess a n (fun p => serveWrite s p n v) s

end Sys2Proof.Machine
end

