-- ==== Sys2Proof/Machine/BitPack.lean ====
section
/-! DEFINITION. The bit packer and unpacker (40_bitpack.md): the sample streams (R100), the laws `Unpack` (R101) and
`Pack` (R102), and the commands UNPACK (R103) and PACK (R106). -/

namespace Sys2Proof.Machine

/-! ### The laws -/

/-- Bit `i` of a byte as a sample byte, "with bits above the depth zero" (R100). -/
def bitSample (b : Byte) (i : Nat) : Byte := (b.extractLsb' i 1).setWidth 8

/-- `[B[7], B[6], ..., B[0]]`: the eight samples of a byte, most significant bit first (R101). -/
def bitSamples (b : Byte) : List Byte :=
  [bitSample b 7, bitSample b 6, bitSample b 5, bitSample b 4,
   bitSample b 3, bitSample b 2, bitSample b 1, bitSample b 0]

/-- `B[7:4]` as a sample byte (R101). -/
def highNibble (b : Byte) : Byte := (b.extractLsb' 4 4).setWidth 8

/-- `B[3:0]` as a sample byte (R101). -/
def lowNibble (b : Byte) : Byte := (b.extractLsb' 0 4).setWidth 8

/-- `[B[7:4], B[3:0]]`: the two samples of a byte, high nibble first (R101). -/
def nibbleSamples (b : Byte) : List Byte := [highNibble b, lowNibble b]

/-- `Unpack(B, d)` (R101). -/
def unpack (d : Depth) (bytes : List Byte) : List Byte :=
  match d with
  | .d1 => bytes.flatMap bitSamples
  | .d4 => bytes.flatMap nibbleSamples
  | .d8 => bytes
  | .d24 => bytes

/-- The byte a group of eight depth-1 samples packs to, the first sample most significant: `sum_k s_k << (7 - k)`
(R102). -/
def bitsByte (s0 s1 s2 s3 s4 s5 s6 s7 : Byte) : Byte :=
  BitVec.ofNat 8
    (s0.toNat <<< 7 + s1.toNat <<< 6 + s2.toNat <<< 5 + s3.toNat <<< 4 +
     s4.toNat <<< 3 + s5.toNat <<< 2 + s6.toNat <<< 1 + s7.toNat <<< 0)

/-- The byte a group of two depth-4 samples packs to, the first sample in the high nibble (R102). -/
def nibblesByte (s0 s1 : Byte) : Byte := BitVec.ofNat 8 (s0.toNat <<< 4 + s1.toNat <<< 0)

/-- Whole groups of eight depth-1 samples, packed (R102). -/
def packBits : List Byte → List Byte
  | s0 :: s1 :: s2 :: s3 :: s4 :: s5 :: s6 :: s7 :: rest => bitsByte s0 s1 s2 s3 s4 s5 s6 s7 :: packBits rest
  | _ => []

/-- Whole groups of two depth-4 samples, packed (R102). -/
def packNibbles : List Byte → List Byte
  | s0 :: s1 :: rest => nibblesByte s0 s1 :: packNibbles rest
  | _ => []

/-- `T'`: the samples that are packed, by the policy for a partial trailing group of `g` samples (R102, R107). -/
def settleTail (g : Nat) (policy : TailPolicy) (samples : List Byte) : Except ErrorKind (List Byte) :=
  let r := samples.length % g
  if r = 0 then .ok samples
  else
    match policy with
    | .error => .error .malformedBuffer
    | .zeroPad => .ok (samples ++ List.replicate (g - r) 0#8)
    | .drop => .ok (samples.take (samples.length - r))

/-- `Pack` at depth 1 or 4, `bits` bits a sample and `g` samples a byte: the range check covers every sample, "including
samples that DROP would discard" (R102). -/
def packGroups (bits g : Nat) (group : List Byte → List Byte) (policy : TailPolicy) (samples : List Byte) : Result :=
  if samples.any (fun t => decide (t.toNat ≥ 2 ^ bits)) then .err .malformedBuffer
  else
    match settleTail g policy samples with
    | .error k => .err k
    | .ok whole => .ok (group whole)

/-- `Pack(T, d, ptail)` (R102). -/
def pack (d : Depth) (policy : TailPolicy) (samples : List Byte) : Result :=
  match d with
  | .d1 => packGroups 1 8 packBits policy samples
  | .d4 => packGroups 4 2 packNibbles policy samples
  | .d8 => .ok samples
  | .d24 => if brokenTriples .d24 samples then .err .malformedBuffer else .ok samples

/-! ### The commands -/

/-- `Exec_UNPACK` (R103). -/
def unpackCommand (depth srcCap dstCap : Nat) (l : Latch) (src : List Byte) : Result :=
  afterCommon (common false false depth srcCap l) fun d =>
    if brokenTriples d src then .err .malformedBuffer
    else fitting dstCap (.ok (unpack d src))

/-- UNPACK (R103). -/
def execUnpack (depth : Nat) (s : State) : Host.Outcome State Fault Refusal :=
  completeCommand (unpackCommand depth) s

/-- `Exec_PACK` (R106); the policy is the latched CTRL.PTAIL (R74). -/
def packCommand (depth srcCap dstCap : Nat) (l : Latch) (src : List Byte) : Result :=
  afterCommon (common false false depth srcCap l) fun d =>
    fitting dstCap (pack d l.ctrl.ptail src)

/-- PACK (R106). -/
def execPack (depth : Nat) (s : State) : Host.Outcome State Fault Refusal :=
  completeCommand (packCommand depth) s

end Sys2Proof.Machine
end

