-- ==== Sys2Proof/Machine/Flip.lean ====
section
/-! DEFINITION. The row/channel flipper (42_flip.md): the flip laws (R140) and the command FLIP (R145). -/

namespace Sys2Proof.Machine

/-- `bitrev(b)`: bit i of the result is bit 7-i of `b` (R140). -/
def bitrev (b : Byte) : Byte :=
  BitVec.ofBoolListBE
    [b.getLsbD 0, b.getLsbD 1, b.getLsbD 2, b.getLsbD 3, b.getLsbD 4, b.getLsbD 5, b.getLsbD 6, b.getLsbD 7]

/-- `swapnib(b) = b[3:0]:b[7:4]` (R140). -/
def swapnib (b : Byte) : Byte := b.extractLsb' 0 4 ++ b.extractLsb' 4 4

/-- The first and third byte of every triplet swapped (R140, depth 24). -/
def swapTriplets : List Byte → List Byte
  | c0 :: c1 :: c2 :: rest => c2 :: c1 :: c0 :: swapTriplets rest
  | _ => []

/-- `Flip(B, d)`: the byte sequence reversed, then the transform inside each unit (R140). -/
def flipBytes (d : Depth) (bytes : List Byte) : List Byte :=
  match d with
  | .d1 => bytes.reverse.map bitrev
  | .d4 => bytes.reverse.map swapnib
  | .d8 => bytes.reverse
  | .d24 => swapTriplets bytes.reverse

/-- `Exec_FLIP` (R145). -/
def flipCommand (depth srcCap dstCap : Nat) (l : Latch) (src : List Byte) : Result :=
  afterCommon (common false false depth srcCap l) fun d =>
    if brokenTriples d src then .err .malformedBuffer
    else if src.length > dstCap then .err .bufferOverflow
    else .ok (flipBytes d src)

/-- FLIP (R145). -/
def execFlip (depth : Nat) (s : State) : Host.Outcome State Fault Refusal :=
  completeCommand (flipCommand depth) s

end Sys2Proof.Machine
end

