-- ==== Sys2Proof/Machine/Resample.lean ====
section
/-! DEFINITION. The resampler (41_resample.md): replication (R120) and UPSCALE (R121); the block geometry (R124), block
sums (R125), rounding (R126), the channel join (R127) and DOWNSCALE24 (R128). -/

namespace Sys2Proof.Machine

/-! ### Nearest-neighbour replication -/

/-- `Rep(T, n, 24)`: every triple `n` times in a row (R120). -/
def repeatTriples (n : Nat) : List Byte → List Byte
  | c0 :: c1 :: c2 :: rest => (List.replicate n [c0, c1, c2]).flatten ++ repeatTriples n rest
  | _ => []

/-- `Rep(T, n, d)`: every sample `n` times in a row (R120). -/
def repeatSamples (d : Depth) (n : Nat) (samples : List Byte) : List Byte :=
  match d with
  | .d1 => samples.flatMap (List.replicate n)
  | .d4 => samples.flatMap (List.replicate n)
  | .d8 => samples.flatMap (List.replicate n)
  | .d24 => repeatTriples n samples

/-- `Exec_UPSCALE` (R121): the length check is made on the exact product, before the work. -/
def upscaleCommand (depth srcCap dstCap : Nat) (l : Latch) (src : List Byte) : Result :=
  afterCommon (common false true depth srcCap l) fun d =>
    if brokenTriples d src then .err .malformedBuffer
    else if l.scale * src.length > dstCap then .err .bufferOverflow
    else pack d .error (repeatSamples d l.scale (unpack d src))

/-- UPSCALE (R121). -/
def execUpscale (depth : Nat) (s : State) : Host.Outcome State Fault Refusal :=
  completeCommand (upscaleCommand depth) s

/-! ### Box-filter shrink -/

/-- `N`, the pixels of a 24-bit buffer (R124). -/
def pixelCount (src : List Byte) : Nat := src.length / 3

/-- `Geom(S, W, n)`: the raster of `w` pixels a row is well formed for factor `n` (R124). -/
def rasterFits (src : List Byte) (w n : Nat) : Bool :=
  src.length % 3 == 0 && decide (w ≥ 1) && w % n == 0 && pixelCount src % w == 0 && pixelCount src / w % n == 0

/-- `ch_c[p] = S[3p + c]` (R125). -/
def channel (src : List Byte) (c p : Nat) : Nat := (src.getD (3 * p + c) 0#8).toNat

/-- `sum_c(X, Y)`, an exact integer (R125). -/
def blockSum (src : List Byte) (w n c x y : Nat) : Nat :=
  ((List.range n).map fun dy =>
    ((List.range n).map fun dx => channel src c ((y * n + dy) * w + x * n + dx)).sum).sum

/-- `Round(s, m, RND)` (R126). -/
def roundMean (policy : Rounding) (s m : Nat) : Nat :=
  let q := s / m
  let r := s % m
  match policy with
  | .truncate => q
  | .halfUp => q + if 2 * r ≥ m then 1 else 0
  | .halfEven => q + if 2 * r > m ∨ (2 * r = m ∧ q % 2 = 1) then 1 else 0

/-- `Clamp(v) = min(max(v, 0), 255)` (R127). -/
def clampByte (v : Nat) : Nat := min (max v 0) 255

/-- The three bytes of output pixel `(x, y)` (R127). -/
def blockPixel (policy : Rounding) (src : List Byte) (w n x y : Nat) : List Byte :=
  (List.range 3).map fun c => BitVec.ofNat 8 (clampByte (roundMean policy (blockSum src w n c x y) (n * n)))

/-- The output raster in row-major order, `w / n` pixels a row (R127, R128). -/
def shrink (policy : Rounding) (src : List Byte) (w n : Nat) : List Byte :=
  (List.range (pixelCount src / w / n)).flatMap fun y =>
    (List.range (w / n)).flatMap fun x => blockPixel policy src w n x y

/-- `Exec_DOWNSCALE24` after `Common` (R128): the geometry, then the result's length, then the result. -/
def shrinkLaw (dstCap : Nat) (l : Latch) (src : List Byte) : Result :=
  if rasterFits src l.rowPixels l.scale then
    if 3 * (l.rowPixels / l.scale) * (pixelCount src / l.rowPixels / l.scale) > dstCap then .err .bufferOverflow
    else .ok (shrink l.ctrl.rnd src l.rowPixels l.scale)
  else .err .malformedBuffer

/-- `Exec_DOWNSCALE24` (R128). -/
def downscaleCommand (depth srcCap dstCap : Nat) (l : Latch) (src : List Byte) : Result :=
  afterCommon (common true true depth srcCap l) fun _ => shrinkLaw dstCap l src

/-- DOWNSCALE24 (R128). -/
def execDownscale24 (depth : Nat) (s : State) : Host.Outcome State Fault Refusal :=
  completeCommand (downscaleCommand depth) s

end Sys2Proof.Machine
end

