-- ==== Sys2Proof/Machine/Resize.lean ====
section
/-! DEFINITION. The depth dispatcher's RESIZE (43_dispatch.md, R157, R158): the one command that chooses between two
strategies. -/

namespace Sys2Proof.Machine

/-- `Exec_RESIZE` (R158): `Common` on the latched word, then the strategy SHRINK selects, which runs its own `Common` on
the same latch. -/
def resizeCommand (depth : Nat) (shrinks : Bool) (srcCap dstCap : Nat) (l : Latch) (src : List Byte) : Result :=
  afterCommon (common shrinks true depth srcCap l) fun _ =>
    if shrinks then downscaleCommand depth srcCap dstCap l src
    else upscaleCommand depth srcCap dstCap l src

/-- RESIZE (R158). -/
def execResize (depth : Nat) (shrinks : Bool) (s : State) : Host.Outcome State Fault Refusal :=
  completeCommand (resizeCommand depth shrinks) s

end Sys2Proof.Machine
end

