-- ==== Sys2Proof/Machine/Dispatch.lean ====
section
/-! DEFINITION. The dispatch on the opcode (R156): one arm for each command. -/

namespace Sys2Proof.Machine

def exec (i : Instr) (s : State) : Host.Outcome State Fault Refusal :=
  match i with
  | .unpack d => Sys2Proof.Machine.execUnpack d s
  | .pack d => Sys2Proof.Machine.execPack d s
  | .upscale d => Sys2Proof.Machine.execUpscale d s
  | .downscale24 d => Sys2Proof.Machine.execDownscale24 d s
  | .resize d sh => Sys2Proof.Machine.execResize d sh s
  | .flip d => Sys2Proof.Machine.execFlip d s

end Sys2Proof.Machine
end

