-- ==== Sys2Proof/Machine/Step.lean ====
section
/-! DEFINITION. One step of the block: the next turn at its boundary is taken, whole (R57, R60). -/

namespace Sys2Proof.Machine

/-- The engine's turn (R20, R153): while `rst` is asserted the engine stands still (R191), an Idle engine has no step
(log 14), and a Busy engine completes: the command its latched word decodes to runs, an illegal word completes with
IllegalCommand (R156, R171). -/
def engineTurn (s : State) : Host.Outcome State Fault Refusal :=
  if s.rst then .next s
  else
    match s.commandInFlight with
    | none => .next s
    | some w =>
      match decode w with
      | .command i => exec i s
      | .rejected _ => completeIllegal s

/-- One step: the oldest turn is taken from the list and carried out. With no turn left the host does nothing more, and
a Busy engine completes (R152, R201: "a `Busy` engine eventually completes"; log 1, log 15). -/
def step (s : State) : Host.Outcome State Fault Refusal :=
  match s.turns with
  | [] => engineTurn s
  | .engine :: rest => engineTurn (s.withTurns rest)
  | .reset level :: rest => .next ((s.withTurns rest).driveReset level)
  | .read a n :: rest => hostRead a n (s.withTurns rest)
  | .write a n v :: rest => hostWrite a n v (s.withTurns rest)

/-- The state in which the very next step runs the command whose table bits are `w` (log 11): the word is accepted as a
CMD write accepts it (R151), `rst` is released and the engine has the next turn. -/
def State.withFetchWord (s : State) (nbits w : Nat) : State := s.placeCommand (BitVec.ofNat 32 (w % 2 ^ nbits))

end Sys2Proof.Machine
end

