-- ==== Sys2Proof/Safety.lean ====
section
/-! DEFINITION. The terms the claims use, written from the rules and not from the machine's functions: the invariant of
the block's state, a command in flight and its turn, the accesses the bus serves, the samples of a buffer as numbers,
and the first error that applies (R180). -/

namespace Sys2Proof.Machine

/-! ### The invariant -/

/-- The capacities lie in the range of R7: 1 to 2^20. -/
def State.CapacitiesOk (s : State) : Prop := 1 ≤ s.srcCap ∧ s.srcCap ≤ 2 ^ 20 ∧ 1 ≤ s.dstCap ∧ s.dstCap ≤ 2 ^ 20

/-- While Busy the registers read back what the latch holds (R33), DONE = 0, ERR = 0 and DST_LEN = 0 (R152, R197). -/
def State.LatchAgrees (s : State) : Prop :=
  ∀ l, s.eng = .busy l → l = s.capture s.cmd ∧ s.done = false ∧ s.err = none ∧ s.dstLen = 0#32

/-- While Idle the result announced fits DST, and an error announces none (R28, R153). -/
def State.ResultFits (s : State) : Prop :=
  s.eng = .idle → s.dstLen.toNat ≤ s.dstCap ∧ (s.err ≠ none → s.dstLen = 0#32)

/-- The registers and the engine hold their reset values (R37). -/
def State.AtResetValues (s : State) : Prop :=
  s.eng = .idle ∧ s.ctrl.word = 0x00000001#32 ∧ s.cmd = 0#32 ∧ s.statusWord = 0#32 ∧ s.srcLen = 0#32 ∧
    s.factor = 1#32 ∧ s.width = 1#32 ∧ s.dstLen = 0#32 ∧ s.doneOutput = false

/-- The two buffers' draws have been made and are two (the model's bookkeeping of free values, log 2). -/
def State.DrawsApart (s : State) : Prop :=
  s.src.draw < s.draws ∧ s.dst.draw < s.draws ∧ s.src.draw ≠ s.dst.draw

/-- The invariant of the block: what holds at reset and what every step keeps. -/
structure State.Inv (s : State) : Prop where
  srcWf : s.src.wf s.srcCap
  dstWf : s.dst.wf s.dstCap
  capacities : s.CapacitiesOk
  latch : s.LatchAgrees
  result : s.ResultFits
  /-- "While `rst` is asserted ... every piece of state takes the value in ... R37" (R190) -/
  inReset : s.rst = true → s.AtResetValues
  draws : s.DrawsApart

/-! ### A command in flight -/

/-- A command runs with latch `l`: the engine is `Busy(l)` (R20). -/
def State.Running (s : State) (l : Latch) : Prop := s.eng = .busy l

/-- The engine moves next (log 1), and the turns `rest` are left after it. -/
def State.EngineNext (s : State) (rest : List Turn) : Prop :=
  s.rst = false ∧ (s.turns = .engine :: rest ∨ (s.turns = [] ∧ rest = []))

/-- A command runs with latch `l` at the supported depth `d`, and its source lies inside SRC (R154). -/
def State.Ready (s : State) (l : Latch) (raw : Nat) (d : Depth) : Prop :=
  s.Running l ∧ Depth.ofRaw raw = some d ∧ l.srclen.toNat ≤ s.srcCap

/-- What no completion changes: every register but STATUS and DST_LEN, SRC, the parameters, WBUSY, the reset input, and
the boundary (R153, R177, R182). -/
def State.SameOutside (s t : State) : Prop :=
  t.ctrl = s.ctrl ∧ t.cmd = s.cmd ∧ t.srcLen = s.srcLen ∧ t.factor = s.factor ∧ t.width = s.width ∧
    t.wbusy = s.wbusy ∧ t.srcCapr = s.srcCapr ∧ t.dstCapr = s.dstCapr ∧ t.src = s.src ∧ t.rst = s.rst ∧
    t.turns = s.turns ∧ t.resp = s.resp

/-- `t` is `s` with its command completed successfully, a result of `n` bytes in DST[0..n) and the rest of DST kept
(R153, R59). -/
def State.CompletedWith (s t : State) (n : Nat) : Prop :=
  t.eng = .idle ∧ t.done = true ∧ t.err = none ∧ t.dstLen.toNat = n ∧ (∀ a, n ≤ a → t.dst.read a = s.dst.read a) ∧
    s.SameOutside t

/-- `t` is `s` with its command completed with error `k`: the code, DST_LEN = 0, and any value in every byte of DST,
which a draw made for this completion gives (R153, R177; log 2). -/
def State.FailedWith (s t : State) (k : ErrorKind) : Prop :=
  t.eng = .idle ∧ t.done = true ∧ t.err = some k ∧ t.dstLen = 0#32 ∧
    (∀ a, t.dst.read a = Config.freeByte s.draws a) ∧ s.SameOutside t

/-! ### Accesses the bus serves (R51 to R54) -/

/-- 1, 2 or 4 bytes, naturally aligned (R52). -/
abbrev aligned (a n : Nat) : Prop := (n = 1 ∨ n = 2 ∨ n = 4) ∧ a % n = 0

/-- A legal access of the register page (R53). -/
abbrev pageAccess (a n : Nat) : Prop := n = 4 ∧ a % 4 = 0 ∧ a < 0x100000

/-- A legal access of the 1 MiB window at `base`, of which `cap` bytes exist (R51, R54). -/
abbrev windowAccess (base cap a n : Nat) : Prop :=
  aligned a n ∧ base ≤ a ∧ a < base + 0x100000 ∧ a - base + n ≤ cap

/-- A legal access of the reserved range (R54). -/
abbrev reservedAccess (a n : Nat) : Prop := aligned a n ∧ 0x300000 ≤ a ∧ a < 0x400000

/-- The accesses that get no BusError. -/
def State.Serves (s : State) (a n : Nat) : Prop :=
  pageAccess a n ∨ windowAccess 0x100000 s.srcCap a n ∨ windowAccess 0x200000 s.dstCap a n ∨ reservedAccess a n

/-- A write that a Busy engine drops: CMD, CTRL, SRC_LEN, FACTOR, WIDTH, or a byte of a window (R196). -/
def State.Drops (s : State) (a n : Nat) : Prop :=
  (n = 4 ∧ (a = 0x04 ∨ a = 0x08 ∨ a = 0x10 ∨ a = 0x14 ∨ a = 0x18)) ∨
    windowAccess 0x100000 s.srcCap a n ∨ windowAccess 0x200000 s.dstCap a n

/-- The head of the turns is a host access at offset `a`. -/
def State.AccessNext (s : State) (a : Nat) (rest : List Turn) : Prop :=
  ∃ n, s.turns = .read a n :: rest ∨ ∃ v, s.turns = .write a n v :: rest

/-! ### Samples as numbers (R100, R101) -/

/-- Sample `m` of the packed buffer whose bytes are `byte`: bits and nibbles most significant first, a byte, or the
three channels of a triple. -/
def sampleAt (d : Depth) (byte : Nat → Byte) (m : Nat) : List Nat :=
  match d with
  | .d1 => [(byte (m / 8)).toNat / 2 ^ (7 - m % 8) % 2]
  | .d4 => [(byte (m / 2)).toNat / 16 ^ (1 - m % 2) % 16]
  | .d8 => [(byte m).toNat]
  | .d24 => [(byte (3 * m)).toNat, (byte (3 * m + 1)).toNat, (byte (3 * m + 2)).toNat]

/-- How many samples a packed buffer of `len` bytes holds (R101, R122). -/
def sampleCount (d : Depth) (len : Nat) : Nat :=
  match d with
  | .d1 => 8 * len
  | .d4 => 2 * len
  | .d8 => len
  | .d24 => len / 3

/-- Sample `m` of the sample stream whose bytes are `byte` (R100). -/
def streamAt (d : Depth) (byte : Nat → Byte) (m : Nat) : List Nat :=
  match d with
  | .d1 => [(byte m).toNat]
  | .d4 => [(byte m).toNat]
  | .d8 => [(byte m).toNat]
  | .d24 => [(byte (3 * m)).toNat, (byte (3 * m + 1)).toNat, (byte (3 * m + 2)).toNat]

/-- How many samples a sample stream of `len` bytes holds (R100). -/
def streamCount (d : Depth) (len : Nat) : Nat :=
  match d with
  | .d1 => len
  | .d4 => len
  | .d8 => len
  | .d24 => len / 3

/-- `len(Unpack(B, d))` in bytes (R101). -/
def unpackedLength (d : Depth) (len : Nat) : Nat :=
  match d with
  | .d1 => 8 * len
  | .d4 => 2 * len
  | .d8 => len
  | .d24 => len

/-- The samples a byte holds at depth 1 and 4 (R102); 1 where samples are whole bytes. -/
def groupSize (d : Depth) : Nat :=
  match d with
  | .d1 => 8
  | .d4 => 2
  | .d8 => 1
  | .d24 => 1

/-- The bytes PACK gives for `len` sample bytes: "`ceil(len(S)/spb)` under ZERO_PAD and `floor(len(S)/spb)` under DROP"
(R106); under ERROR only whole groups are packed. -/
def packedLength (d : Depth) (policy : TailPolicy) (len : Nat) : Nat :=
  match policy with
  | .error => len / groupSize d
  | .zeroPad => (len + groupSize d - 1) / groupSize d
  | .drop => len / groupSize d

/-- A sample stream PACK can pack: no sample byte out of range at depth 1 and 4, whole triples at depth 24, and whole
groups under ERROR (R102, R106). -/
abbrev packable (d : Depth) (policy : TailPolicy) (len : Nat) (byte : Nat → Byte) : Prop :=
  (d = .d1 ∨ d = .d4 → (∀ k, k < len → (byte k).toNat < 2 ^ d.bits) ∧ (policy = .error → len % groupSize d = 0)) ∧
    (d = .d24 → len % 3 = 0)

/-- `Geom(S, W, n)` for a source of `len` bytes (R124). -/
abbrev geometry (len w n : Nat) : Prop :=
  len % 3 = 0 ∧ 1 ≤ w ∧ w % n = 0 ∧ len / 3 % w = 0 ∧ len / 3 / w % n = 0

/-! ### The error a command reports (R75, R179, R180), from the bits of the latched word -/

/-- `Legal(c)` (R75), by arithmetic on the word's number. -/
abbrev legalWord (w : Word) : Prop :=
  (w.toNat % 16 = 1 ∨ w.toNat % 16 = 2 ∨ w.toNat % 16 = 3 ∨ w.toNat % 16 = 4 ∨ w.toNat % 16 = 5 ∨ w.toNat % 16 = 6) ∧
    w.toNat / 2 ^ 4 % 2 ^ 4 = 0 ∧ w.toNat / 2 ^ 17 = 0 ∧ (w.toNat / 2 ^ 16 % 2 = 0 ∨ w.toNat % 16 = 5)

/-- `Shape(op, s, d, S, L)`: no MalformedBuffer cause of the opcode applies (R174, R180). -/
abbrev shapeHolds (op d : Nat) (shrinks : Bool) (l : Latch) (src : List Byte) : Prop :=
  if op = 4 ∨ (op = 5 ∧ shrinks = true) then geometry src.length l.width.toNat l.factor.toNat
  else
    (d = 24 → src.length % 3 = 0) ∧
      (op = 2 → d = 1 ∨ d = 4 →
        (∀ b ∈ src, b.toNat < 2 ^ d) ∧ (l.ctrl.ptail = .error → src.length % (8 / d) = 0))

/-- `OutLen(op, s, d, S, L)`: the exact length of the result (R176, R180; for PACK R106). -/
def resultLength (op d : Nat) (shrinks : Bool) (l : Latch) (src : List Byte) : Nat :=
  if op = 1 then (if d = 1 then 8 * src.length else if d = 4 then 2 * src.length else src.length)
  else if op = 2 then
    (if d = 1 ∨ d = 4 then
      (match l.ctrl.ptail with
       | .error => src.length / (8 / d)
       | .zeroPad => (src.length + 8 / d - 1) / (8 / d)
       | .drop => src.length / (8 / d))
     else src.length)
  else if op = 4 ∨ (op = 5 ∧ shrinks = true) then src.length / (l.factor.toNat * l.factor.toNat)
  else if op = 6 then src.length
  else l.factor.toNat * src.length

/-- `ErrorOf(L, S)`: the first cause that applies, in the order of R179 and R180; `none` if no cause does. -/
def errorOf (l : Latch) (srcCap dstCap : Nat) (src : List Byte) : Option ErrorKind :=
  let op := l.cmd.toNat % 16
  let d := l.cmd.toNat / 2 ^ 8 % 2 ^ 8
  let shrinks := l.cmd.toNat / 2 ^ 16 % 2 == 1
  if ¬ legalWord l.cmd then some .illegalCommand
  else if d ≠ 1 ∧ d ≠ 4 ∧ d ≠ 8 ∧ d ≠ 24 then some .unsupportedBitDepth
  else if (op = 4 ∨ (op = 5 ∧ shrinks = true)) ∧ d ≠ 24 then some .unsupportedOperation
  else if (op = 3 ∨ op = 4 ∨ op = 5) ∧ l.factor = 0#32 then some .badFactor
  else if srcCap < l.srclen.toNat then some .malformedBuffer
  else if ¬ shapeHolds op d shrinks l src then some .malformedBuffer
  else if dstCap < resultLength op d shrinks l src then some .bufferOverflow
  else none

end Sys2Proof.Machine
end

