-- ==== Sys2Proof/Certificates/Slice0/Obligations.lean ====
section
/-! DEFINITION. The statements for the provers, one definition each. The docstring of each names the rule of spec/ it
formalises, or says what it is derived from. A free byte (`Config.freeByte`) in a statement has no value a proof can
see: the statement holds whatever it is. -/

open Sys2Proof Sys2Proof.Machine

/-! ### Encoding -/

/-- Words written out from the bit layout of R70 and the opcodes of R71 decode to the commands they stand for, and words
of the reserved space of R76 do not. -/
def Obligations.WordsWrittenOutDecode : Prop :=
  decode 0b0000000000000000_00000001_0000_0001#32 = .command (.unpack 1) ∧
  decode 0b0000000000000000_00000100_0000_0010#32 = .command (.pack 4) ∧
  decode 0b0000000000000000_00001000_0000_0011#32 = .command (.upscale 8) ∧
  decode 0b0000000000000000_00011000_0000_0100#32 = .command (.downscale24 24) ∧
  decode 0b0000000000000000_00011000_0000_0101#32 = .command (.resize 24 false) ∧
  decode 0b0000000000000001_00011000_0000_0101#32 = .command (.resize 24 true) ∧
  decode 0b0000000000000000_00011000_0000_0110#32 = .command (.flip 24) ∧
  decode 0b0000000000000000_00000111_0000_0101#32 = .command (.resize 7 false) ∧
  decode 0b0000000000000000_00000000_0000_0000#32 = .rejected .reservedOpcode ∧
  decode 0b0000000000000000_00001111_0000_0111#32 = .rejected .reservedOpcode ∧
  decode 0b0000000000000001_00001000_0000_0011#32 = .rejected .shrinkOutsideResize ∧
  decode 0b0000000000000000_00000000_0001_0001#32 = .rejected .reservedLowBits ∧
  decode 0b1000000000000000_00001000_0000_0001#32 = .rejected .reservedHighBits

/-- Every command that fits its word, at every DEPTH from 0 to 255 and every SHRINK, is what the decoder reads from its
encoding, so no operand bit is dropped (derived from R70 to R73, R78). -/
def Obligations.DecodeOfEncodeIsTheCommand : Prop :=
  ∀ i : Instr, i.wf = true → decode (encode i) = .command i

/-- A word the decoder reads as a command is the one word of that command: two words never stand for one command
(derived from R70, R77). -/
def Obligations.EncodeOfDecodedIsTheWord : Prop :=
  ∀ (w : Word) (i : Instr), decode w = .command i → encode i = w ∧ i.wf = true

/-- The decoder accepts exactly the words that are `Legal` (R75), whatever DEPTH holds. -/
def Obligations.DecoderAcceptsExactlyLegalWords : Prop :=
  ∀ w : Word, (∃ i, decode w = .command i) ↔ legalWord w

/-- The word of a command is `op | (d << 8) | (s << 16)` (R70), and the row of its opcode in the table, alone of all
rows, covers it by mask and match (R78). -/
def Obligations.EncodingFollowsTheFieldLayout : Prop :=
  ∀ i : Instr, i.wf = true →
    (encode i).toNat = i.opcode + i.depth * 2 ^ 8 + i.shrink.toNat * 2 ^ 16 ∧
    ∀ r ∈ opcodeRows, (r.covers (encode i) = true ↔ r.opcode = i.opcode)

/-! ### The step and the life of a command -/

/-- When the latched word decodes to a command and the engine moves next, the step is that command's meaning, on the
state without the turn taken (R156, R153; the turn is log 1). -/
def Obligations.StepRunsTheDecodedCommand : Prop :=
  ∀ (s : State) (l : Latch) (rest : List Turn) (i : Instr),
    s.EngineNext rest → s.Running l → decode l.cmd = .command i → step s = exec i { s with turns := rest }

/-- An accepted word that is not legal completes with IllegalCommand, code 4; CMD keeps the word and nothing else is
recorded (derived from R171; DST_LEN = 0, any value in DST and the frame from R153 and R177).
The order of turns is the model's (log 1), and so is the draw that gives DST any value (log 2). -/
def Obligations.IllegalWordCompletesWithIllegalCommand : Prop :=
  ∀ (s : State) (l : Latch) (rest : List Turn), s.EngineNext rest → s.Running l → ¬ legalWord l.cmd →
    ∃ t, step s = .next t ∧ State.FailedWith { s with turns := rest } t .illegalCommand ∧ t.errCode = 4 ∧ t.cmd = s.cmd

/-- A 4-byte write at 0x08 while Idle is accepted: the latch takes the word and the four operand registers as they
stand, BUSY is set and DONE, ERR and DST_LEN are cleared, WBUSY and all else unchanged; the same write while Busy is
dropped (R151).
The order of turns is the model's (log 1), and so is the response to a write (log 10). -/
def Obligations.CmdWriteIsAcceptedWhileIdle : Prop :=
  ∀ (s : State) (rest : List Turn) (v : Word), s.rst = false → s.turns = .write 0x08 4 v :: rest →
    (s.eng = .idle → ∃ t, step s = .next t ∧
      t = { s with
            turns := rest, resp := some .written, cmd := v, done := false, err := none, dstLen := 0#32,
            eng := .busy { cmd := v, ctrl := s.ctrl, srclen := s.srcLen, factor := s.factor, width := s.width } } ∧
      t.statusWord.extractLsb' 0 8 = 0x01#8) ∧
    (∀ l, s.Running l →
      step s = .next { s with turns := rest, resp := some .written, wbusy := true })

/-- Between acceptance and completion no host access changes the command's latch, its operand registers, its source
bytes or DST, so the command cannot see a later write (derived from R63, R195, R196).
The order of turns is the model's (log 1). -/
def Obligations.RunningCommandSeesNoLaterWrite : Prop :=
  ∀ (s t : State) (l : Latch) (a : Nat) (rest : List Turn), s.Running l → s.AccessNext a rest → step s = .next t →
    t.Running l ∧ t.ctrl = s.ctrl ∧ t.cmd = s.cmd ∧ t.srcLen = s.srcLen ∧ t.factor = s.factor ∧ t.width = s.width ∧
      t.src = s.src ∧ t.dst = s.dst ∧ t.dstLen = s.dstLen ∧ t.err = s.err ∧ t.source l = s.source l

/-- The engine leaves Idle only when a CMD write is accepted, and leaves Busy only by its own completion, once, or by
reset (R20, R152, R191; derived).
The order of turns is the model's (log 1). -/
def Obligations.EngineMovesOnlyByAcceptanceCompletionReset : Prop :=
  ∀ s t : State, step s = .next t →
    (s.eng = .idle → t.eng ≠ .idle →
      ∃ w rest, s.turns = .write 0x08 4 w :: rest ∧ s.rst = false ∧ t.eng = .busy (s.capture w)) ∧
    (∀ l, s.Running l → t.eng ≠ .busy l →
      t.eng = .idle ∧ ((∃ level rest, s.turns = .reset level :: rest) ∨ (∃ rest, s.EngineNext rest ∧ t.done = true)))

/-- A Busy engine completes within as many steps as there are turns, and one more: whatever in-region accesses the host
makes meanwhile, the command ends Idle with DONE set, its own word still in CMD, and the error that its latch and source
had at the start (derived from R150, R152, R195, R201; that the engine completes when no turn is left is log 15). -/
def Obligations.BusyEngineCompletesWhateverTheHostDoes : Prop :=
  ∀ (s : State) (l : Latch), s.rst = false → s.Running l →
    (∀ turn ∈ s.turns, (∃ a n, turn = .read a n ∧ a < 0x400000) ∨ (∃ a n v, turn = .write a n v ∧ a < 0x400000) ∨
      turn = .engine) →
    ∃ k t, k ≤ s.turns.length + 1 ∧ Host.Core.run Sys2Proof.core k s = .next t ∧ t.eng = .idle ∧ t.done = true ∧
      t.cmd = s.cmd ∧ t.src = s.src ∧ t.err = errorOf l s.srcCap s.dstCap (s.source l)

/-- The step stops only on a host access that the spec gives no response (R190) or that is no access of the block
(R50; the model's choices, log 7 and log 8); every other step answers a next state. -/
def Obligations.StepStopsOnlyOnUnservableAccess : Prop :=
  ∀ s : State, (¬ ∃ t, step s = .next t) ↔ ∃ a rest, s.AccessNext a rest ∧ (s.rst = true ∨ 0x400000 ≤ a)

/-- A meaning applied where no command is in flight is stuck, for every command: "The engine has exactly one step,
complete, which is enabled only in `Busy(L)`" (R20). `step` never reaches that: a turn of the Idle engine leaves every
register and both buffers as they are, and only the turn is taken.
The name of the stuck state is the model's (log 12), and so is the idle turn (log 1, log 14). -/
def Obligations.CompletionIsStuckWhileIdle : Prop :=
  ∀ s : State, s.eng = .idle →
    (∀ i : Instr, exec i s = .fault .engineIdle) ∧ step s ≠ .fault .engineIdle ∧
      ∀ rest, s.EngineNext rest → step s = .next { s with turns := rest }

/-! ### What each command delivers -/

/-- UNPACK completes and delivers sample `m` of the packed source as sample `m` of the stream, at every depth (R101,
R103). -/
def Obligations.UnpackDeliversTheSamples : Prop :=
  ∀ (s : State) (l : Latch) (raw : Nat) (d : Depth), s.Ready l raw d →
    (d = .d24 → l.srclen.toNat % 3 = 0) → unpackedLength d l.srclen.toNat ≤ s.dstCap →
    ∃ t, exec (.unpack raw) s = .next t ∧ s.CompletedWith t (unpackedLength d l.srclen.toNat) ∧
      ∀ m < sampleCount d l.srclen.toNat, streamAt d t.dst.read m = sampleAt d s.src.read m

/-- PACK completes and delivers sample `m` of the stream as sample `m` of the packed buffer, zero samples past the
stream under ZERO_PAD, at every depth and under every tail policy (R102, R106). -/
def Obligations.PackDeliversTheSamples : Prop :=
  ∀ (s : State) (l : Latch) (raw : Nat) (d : Depth), s.Ready l raw d →
    packable d l.ctrl.ptail l.srclen.toNat s.src.read → packedLength d l.ctrl.ptail l.srclen.toNat ≤ s.dstCap →
    ∃ t, exec (.pack raw) s = .next t ∧ s.CompletedWith t (packedLength d l.ctrl.ptail l.srclen.toNat) ∧
      ∀ m < sampleCount d (packedLength d l.ctrl.ptail l.srclen.toNat),
        sampleAt d t.dst.read m =
          if m < streamCount d l.srclen.toNat then streamAt d s.src.read m else [0]

/-- UPSCALE, and RESIZE with SHRINK = 0, complete and deliver output sample `m` as input sample `m // n`, at every
depth (the closed forms of R121; R120, R158). -/
def Obligations.UpscaleDeliversEachSampleRepeated : Prop :=
  ∀ (s : State) (l : Latch) (raw : Nat) (d : Depth) (i : Instr), s.Ready l raw d →
    i = .upscale raw ∨ i = .resize raw false → 1 ≤ l.factor.toNat →
    (d = .d24 → l.srclen.toNat % 3 = 0) → l.factor.toNat * l.srclen.toNat ≤ s.dstCap →
    ∃ t, exec i s = .next t ∧ s.CompletedWith t (l.factor.toNat * l.srclen.toNat) ∧
      ∀ m < l.factor.toNat * sampleCount d l.srclen.toNat,
        sampleAt d t.dst.read m = sampleAt d s.src.read (m / l.factor.toNat)

/-- DOWNSCALE24, and RESIZE with SHRINK = 1, complete on a well-formed raster and deliver in channel `c` of output pixel
`(x, y)` the rounded mean of that channel over the `n × n` source block (R124, R125, R127, R128, R158). -/
def Obligations.DownscaleDeliversTheBlockMeans : Prop :=
  ∀ (s : State) (l : Latch) (i : Instr), s.Ready l 24 .d24 →
    i = .downscale24 24 ∨ i = .resize 24 true → 1 ≤ l.factor.toNat →
    geometry l.srclen.toNat l.width.toNat l.factor.toNat →
    l.srclen.toNat / (l.factor.toNat * l.factor.toNat) ≤ s.dstCap →
    ∃ t, exec i s = .next t ∧
      s.CompletedWith t (l.srclen.toNat / (l.factor.toNat * l.factor.toNat)) ∧
      ∀ x y c, x < l.width.toNat / l.factor.toNat → y < l.srclen.toNat / 3 / l.width.toNat / l.factor.toNat → c < 3 →
        (t.dst.read (3 * (y * (l.width.toNat / l.factor.toNat) + x) + c)).toNat =
          roundMean l.ctrl.rnd
            (∑ dy ∈ Finset.range l.factor.toNat, ∑ dx ∈ Finset.range l.factor.toNat,
              (s.src.read (3 * ((y * l.factor.toNat + dy) * l.width.toNat + (x * l.factor.toNat + dx)) + c)).toNat)
            (l.factor.toNat * l.factor.toNat)

/-- FLIP completes and delivers the samples in reverse order, each sample intact, at every depth (R140, R141, R145). -/
def Obligations.FlipDeliversTheSamplesReversed : Prop :=
  ∀ (s : State) (l : Latch) (raw : Nat) (d : Depth), s.Ready l raw d →
    (d = .d24 → l.srclen.toNat % 3 = 0) → l.srclen.toNat ≤ s.dstCap →
    ∃ t, exec (.flip raw) s = .next t ∧ s.CompletedWith t l.srclen.toNat ∧
      ∀ m < sampleCount d l.srclen.toNat,
        sampleAt d t.dst.read m = sampleAt d s.src.read (sampleCount d l.srclen.toNat - 1 - m)

/-- RESIZE is, bit for bit, the strategy its SHRINK bit selects, in every state and at every depth, errors included
(R157, R158). -/
def Obligations.ResizeIsTheStrategyItSelects : Prop :=
  ∀ (s : State) (raw : Nat), exec (.resize raw false) s = exec (.upscale raw) s ∧
    exec (.resize raw true) s = exec (.downscale24 raw) s

/-! ### Errors -/

/-- A step that completes a command reports exactly the first error cause that applies to the latched word, the latched
operands and the source bytes, in the order of R179 and R180, and none if none applies (derived from R179, R180).
The order of turns is the model's (log 1). -/
def Obligations.CompletionReportsTheFirstErrorThatApplies : Prop :=
  ∀ (s : State) (l : Latch) (rest : List Turn), s.EngineNext rest → s.Running l →
    ∃ t, step s = .next t ∧ t.err = errorOf l s.srcCap s.dstCap (s.source l)

/-- A legal command that ends in an error records only the code: the engine is Idle with DONE = 1, DST_LEN is 0, every
byte of DST holds any value, and CMD, CTRL, SRC_LEN, FACTOR, WIDTH, SRC and all else keep their values (derived from
R177, R153).
The draw whose free bytes DST then holds, and the count of draws, are the model's (log 2). -/
def Obligations.AnErrorRecordsOnlyItsCode : Prop :=
  ∀ (s t : State) (l : Latch) (i : Instr) (k : ErrorKind), s.Running l → exec i s = .next t → t.err = some k →
    s.FailedWith t k ∧ t.draws = s.draws + 1

/-- An unsupported DEPTH makes every command fail with UnsupportedBitDepth, code 1, before anything else of it is
looked at (R172). -/
def Obligations.UnsupportedDepthFailsEveryCommand : Prop :=
  ∀ (s : State) (l : Latch) (i : Instr), s.Running l →
    ∃ t, exec i s = .next t ∧ (t.errCode = 1 ↔ i.depth ≠ 1 ∧ i.depth ≠ 4 ∧ i.depth ≠ 8 ∧ i.depth ≠ 24)

/-- UnsupportedOperation, code 2, happens in exactly two cases: DOWNSCALE24, and RESIZE with SHRINK = 1, at DEPTH 1, 4 or
8 (R173). -/
def Obligations.UnsupportedOperationInExactlyTwoCases : Prop :=
  ∀ (s : State) (l : Latch) (i : Instr), s.Running l →
    ∃ t, exec i s = .next t ∧
      (t.errCode = 2 ↔ ∃ raw, (raw = 1 ∨ raw = 4 ∨ raw = 8) ∧ (i = .downscale24 raw ∨ i = .resize raw true))

/-- BadFactor, code 5, is reported exactly when UPSCALE, DOWNSCALE24 or RESIZE runs with a latched FACTOR of 0 at a
depth it supports; UNPACK, PACK and FLIP never report it (R175; the depth checks come first by R179). -/
def Obligations.BadFactorExactlyForAZeroFactor : Prop :=
  ∀ (s : State) (l : Latch) (i : Instr), s.Running l →
    ∃ t, exec i s = .next t ∧
      (t.errCode = 5 ↔ l.factor = 0#32 ∧
        ((∃ raw d, Depth.ofRaw raw = some d ∧ (i = .upscale raw ∨ i = .resize raw false)) ∨
          i = .downscale24 24 ∨ i = .resize 24 true))

/-- Running a failed command again, with the same SRC and operands, gives the same error (R178). -/
def Obligations.RetryGivesTheSameError : Prop :=
  ∀ (s t : State) (l : Latch) (i : Instr) (k : ErrorKind), s.Running l → s.LatchAgrees → exec i s = .next t →
    t.err = some k → ∃ t', exec i (t.accept l.cmd) = .next t' ∧ t'.err = some k

/-! ### Frames and independence -/

/-- The frame of all six commands: completing one changes no register but STATUS and DST_LEN, never SRC, the parameters
or WBUSY, and where it succeeds no byte of DST past the result (R31, R153, R182). -/
def Obligations.CommandsChangeOnlyStatusAndDst : Prop :=
  ∀ (s t : State) (l : Latch) (i : Instr), s.Running l → exec i s = .next t →
    t.eng = .idle ∧ t.done = true ∧ s.SameOutside t ∧
      (t.err = none → t.draws = s.draws ∧ t.dstLen.toNat ≤ s.dstCap ∧
        ∀ a, t.dstLen.toNat ≤ a → t.dst.read a = s.dst.read a)

/-- The outcome of a command depends only on the latch, the capacities and the source bytes: two states that agree on
these, and differ in anything else (DST's contents, STATUS, earlier commands), get the same error or the same result
(R150). -/
def Obligations.OutcomeDependsOnlyOnLatchAndSource : Prop :=
  ∀ (s s' : State) (l : Latch) (i : Instr), s.Running l → s'.Running l → s.srcCapr = s'.srcCapr →
    s.dstCapr = s'.dstCapr → (∀ k < l.srclen.toNat, s.src.read k = s'.src.read k) →
    ∃ t t', exec i s = .next t ∧ exec i s' = .next t' ∧ t.err = t'.err ∧ t.dstLen = t'.dstLen ∧
      (t.err = none → ∀ a < t.dstLen.toNat, t.dst.read a = t'.dst.read a)

/-- The operands a command ignores change nothing of its completion: UNPACK and FLIP ignore FACTOR, WIDTH, RND and
PTAIL, PACK ignores FACTOR, WIDTH and RND, UPSCALE and RESIZE with SHRINK = 0 ignore WIDTH, RND and PTAIL, DOWNSCALE24
and RESIZE with SHRINK = 1 ignore PTAIL (derived from R103, R106, R121, R128, R145, R158). -/
def Obligations.CommandsIgnoreOperandsTheyDoNotRead : Prop :=
  ∀ (s : State) (l : Latch) (raw : Nat) (factor width : Word) (rnd : Rounding) (ptail : TailPolicy), s.Running l →
    (∀ i : Instr, i = .unpack raw ∨ i = .flip raw →
      exec i { s with eng := .busy { l with factor := factor, width := width, ctrl := { rnd := rnd, ptail := ptail } } } =
        exec i s) ∧
    exec (.pack raw)
        { s with eng := .busy { l with factor := factor, width := width, ctrl := { rnd := rnd, ptail := l.ctrl.ptail } } } =
      exec (.pack raw) s ∧
    (∀ i : Instr, i = .upscale raw ∨ i = .resize raw false →
      exec i { s with eng := .busy { l with width := width, ctrl := { rnd := rnd, ptail := ptail } } } = exec i s) ∧
    ∀ i : Instr, i = .downscale24 raw ∨ i = .resize raw true →
      exec i { s with eng := .busy { l with ctrl := { rnd := l.ctrl.rnd, ptail := ptail } } } = exec i s

/-- A result stays until the next command: while Idle no step but a reset changes DST_LEN or ERR unless it accepts a
command, and none but a reset and a host write into the DST window changes DST, so every later read sees the result of
the completion (derived from R60, R61, R153).
The order of turns is the model's (log 1). -/
def Obligations.ResultStaysUntilTheNextCommand : Prop :=
  ∀ s t : State, s.eng = .idle → step s = .next t → (¬ ∃ level rest, s.turns = .reset level :: rest) → t.eng = .idle →
    t.dstLen = s.dstLen ∧ t.err = s.err ∧
      ((¬ ∃ a n v rest, s.turns = .write a n v :: rest ∧ windowAccess 0x200000 s.dstCap a n) → t.dst = s.dst)

/-- No step changes SRC but a host write into the SRC window while Idle and reset, and none changes DST but those, into
its own window, and a completion; the capacity registers never change (R29, R31, R32; derived).
The order of turns is the model's (log 1). -/
def Obligations.BuffersChangeOnlyByHostCompletionReset : Prop :=
  ∀ s t : State, step s = .next t →
    (t.src ≠ s.src → (∃ level rest, s.turns = .reset level :: rest) ∨
      (s.eng = .idle ∧ ∃ a n v rest, s.turns = .write a n v :: rest ∧ windowAccess 0x100000 s.srcCap a n)) ∧
    (t.dst ≠ s.dst → (∃ level rest, s.turns = .reset level :: rest) ∨
      (s.eng = .idle ∧ ∃ a n v rest, s.turns = .write a n v :: rest ∧ windowAccess 0x200000 s.dstCap a n) ∨
      (∃ l rest, s.Running l ∧ s.EngineNext rest)) ∧
    t.srcCapr = s.srcCapr ∧ t.dstCapr = s.dstCapr

/-- WBUSY is sticky: a step sets it only where it drops a write of a Busy engine, and clears it only by a STATUS write
with bit 8 set or by reset (R24, R35, R196; derived).
The order of turns is the model's (log 1). -/
def Obligations.WbusyIsSticky : Prop :=
  ∀ s t : State, step s = .next t →
    (s.wbusy = true → t.wbusy = false →
      (∃ level rest, s.turns = .reset level :: rest) ∨
        ∃ v rest, s.turns = .write 0x0C 4 v :: rest ∧ v.getLsbD 8 = true) ∧
    (s.wbusy = false → t.wbusy = true →
      ∃ l a n v rest, s.Running l ∧ s.turns = .write a n v :: rest ∧ s.Drops a n)

/-! ### The host interface -/

/-- A host access that is not legal gets BusError and changes no state of the block (R51, R52, R53, R55).
The order of turns is the model's (log 1). -/
def Obligations.IllegalAccessGetsBusError : Prop :=
  ∀ (s : State) (a n : Nat) (rest : List Turn), s.rst = false → a < 0x400000 → ¬ s.Serves a n →
    (s.turns = .read a n :: rest ∨ ∃ v, s.turns = .write a n v :: rest) →
    step s = .next { s with turns := rest, resp := some .busError }

/-- While Busy a write to CMD, CTRL, SRC_LEN, FACTOR, WIDTH or a window byte is dropped and sets WBUSY; a write to
STATUS is performed, a write to a read-only register or a reserved offset is ignored, and a write that gets BusError
changes nothing, none of which sets WBUSY (R196).
The order of turns is the model's (log 1), and so is the response to a write (log 10). -/
def Obligations.WritesWhileBusyAreDropped : Prop :=
  ∀ (s : State) (l : Latch) (a n : Nat) (v : Word) (rest : List Turn), s.rst = false → s.Running l →
    s.turns = .write a n v :: rest → a < 0x400000 →
    (s.Drops a n → step s = .next { s with turns := rest, resp := some .written, wbusy := true }) ∧
    (n = 4 ∧ a = 0x0C → step s = .next
      { s with turns := rest, resp := some .written, done := s.done && !v.getLsbD 1,
               wbusy := s.wbusy && !v.getLsbD 8 }) ∧
    (s.Serves a n → ¬ s.Drops a n → ¬ (n = 4 ∧ a = 0x0C) →
      step s = .next { s with turns := rest, resp := some .written }) ∧
    (¬ s.Serves a n → step s = .next { s with turns := rest, resp := some .busError })

/-- While Busy a register read returns the register, with BUSY = 1, DONE = 0, ERR = 0 and DST_LEN = 0; a read of the SRC
window returns SRC; a read of the DST window returns any value, drawn for this read byte by byte (R197; that the values
are those of the registers' own reads is the invariant's `LatchAgrees`).
The order of turns is the model's (log 1), and so is the draw made for a read of DST (log 2, log 17). -/
def Obligations.ReadsWhileBusy : Prop :=
  ∀ (s : State) (l : Latch) (a n : Nat) (rest : List Turn), s.rst = false → s.Running l → s.LatchAgrees →
    s.turns = .read a n :: rest →
    (n = 4 ∧ a = 0x0C → ∃ v, step s = .next { s with turns := rest, resp := some (.data v) } ∧
      v.getLsbD 0 = true ∧ v.getLsbD 1 = false ∧ v.extractLsb' 4 4 = 0#4) ∧
    (n = 4 ∧ a = 0x1C → step s = .next { s with turns := rest, resp := some (.data 0#32) }) ∧
    (windowAccess 0x100000 s.srcCap a n → ∃ v,
      step s = .next { s with turns := rest, resp := some (.data v) } ∧
      v.toNat = ∑ k ∈ Finset.range n, (s.src.read (a - 0x100000 + k)).toNat * 256 ^ k) ∧
    (windowAccess 0x200000 s.dstCap a n → ∃ v,
      step s = .next { s with turns := rest, resp := some (.data v), draws := s.draws + 1 } ∧
      v.toNat = ∑ k ∈ Finset.range n, (Config.freeByte s.draws (a - 0x200000 + k)).toNat * 256 ^ k)

/-- No read has a side effect: whatever it returns, the block is as before (R58; the draw counter is the model's own,
log 2). -/
def Obligations.ReadsHaveNoSideEffect : Prop :=
  ∀ (s t : State) (a n : Nat) (rest : List Turn), s.turns = .read a n :: rest → step s = .next t →
    t = { s with turns := rest, resp := t.resp, draws := t.draws } ∧ t.resp ≠ some .written

/-- What a 4-byte read of each register returns (R21 to R29: the layout of CTRL and STATUS as numbers), and zero at
every other offset of the page (R30) and for a legal read of any width in the reserved range (R54).
The order of turns is the model's (log 1). -/
def Obligations.RegisterReadsReturnTheRegisters : Prop :=
  ∀ (s : State) (a n : Nat) (rest : List Turn), s.rst = false → s.turns = .read a n :: rest →
    pageAccess a n ∨ reservedAccess a n →
    ∃ v : Word, step s = .next { s with turns := rest, resp := some (.data v) } ∧
      v.toNat =
        if a = 0x00 then 0x424D0001
        else if a = 0x04 then
          (match s.ctrl.rnd with | .truncate => 0 | .halfUp => 1 | .halfEven => 2) +
            4 * (match s.ctrl.ptail with | .error => 0 | .zeroPad => 1 | .drop => 2)
        else if a = 0x08 then s.cmd.toNat
        else if a = 0x0C then
          (if s.eng = .idle then 0 else 1) + 2 * (if s.done = true then 1 else 0) +
            16 * (match s.err with
                  | none => 0
                  | some .unsupportedBitDepth => 1
                  | some .unsupportedOperation => 2
                  | some .malformedBuffer => 3
                  | some .illegalCommand => 4
                  | some .badFactor => 5
                  | some .bufferOverflow => 6) +
            256 * (if s.wbusy = true then 1 else 0)
        else if a = 0x10 then s.srcLen.toNat
        else if a = 0x14 then s.factor.toNat
        else if a = 0x18 then s.width.toNat
        else if a = 0x1C then s.dstLen.toNat
        else if a = 0x20 then s.srcCapr.toNat
        else if a = 0x24 then s.dstCapr.toNat
        else 0

/-- A write of CTRL while Idle: a field written with the reserved value 3 keeps its previous value, the other takes what
is written, and bits [31:4] read 0 (R22).
The order of turns is the model's (log 1), and so is the response to a write (log 10). -/
def Obligations.CtrlWriteKeepsAFieldWrittenReserved : Prop :=
  ∀ (s : State) (v : Word) (rest : List Turn), s.rst = false → s.turns = .write 0x04 4 v :: rest →
    (s.eng = .idle → ∃ c : Ctrl, step s = .next { s with turns := rest, resp := some .written, ctrl := c } ∧
      c.word.extractLsb' 0 2 = (if v.extractLsb' 0 2 = 3#2 then s.ctrl.word.extractLsb' 0 2 else v.extractLsb' 0 2) ∧
      c.word.extractLsb' 2 2 = (if v.extractLsb' 2 2 = 3#2 then s.ctrl.word.extractLsb' 2 2 else v.extractLsb' 2 2) ∧
      c.word.extractLsb' 4 28 = 0#28) ∧
    (∀ l, s.Running l → step s = .next { s with turns := rest, resp := some .written, wbusy := true })

/-- A write of STATUS clears DONE and WBUSY where it writes 1 and can set no bit: every other bit of the word a host
reads, ERR and BUSY among them, is as before, Busy or not (R24).
The order of turns is the model's (log 1), and so is the response to a write (log 10). -/
def Obligations.StatusWriteClearsOnlyDoneAndWbusy : Prop :=
  ∀ (s : State) (v : Word) (rest : List Turn), s.rst = false → s.turns = .write 0x0C 4 v :: rest →
    ∃ t, step s = .next t ∧
      t = { s with turns := rest, resp := some .written, done := t.done, wbusy := t.wbusy } ∧
      t.statusWord = s.statusWord &&& ~~~(v &&& 0x00000102#32) ∧ t.doneOutput = (s.doneOutput && !v.getLsbD 1)

/-- While Idle a 4-byte write of SRC_LEN, FACTOR or WIDTH stores the value, and a write to any read-only register, any
reserved page offset or, at any legal width, the reserved range is ignored (R25 to R30, R54; derived).
The order of turns is the model's (log 1), and so is the response to a write (log 10). -/
def Obligations.IdleRegisterWritesStoreOrAreIgnored : Prop :=
  ∀ (s : State) (a n : Nat) (v : Word) (rest : List Turn), s.rst = false → s.eng = .idle →
    s.turns = .write a n v :: rest → pageAccess a n ∨ reservedAccess a n → a ≠ 0x04 → a ≠ 0x08 → a ≠ 0x0C →
    step s = .next
      { s with turns := rest, resp := some .written,
               srcLen := if a = 0x10 then v else s.srcLen,
               factor := if a = 0x14 then v else s.factor,
               width := if a = 0x18 then v else s.width }

/-- The windows are little-endian: a legal write while Idle puts `v[8k+7 : 8k]` at `B[i+k]` and leaves every other byte
of both buffers and every register, and a legal read returns `sum_k B[i+k] << (8k)` (R56).
The order of turns is the model's (log 1), and so is the response to a write (log 10). -/
def Obligations.WindowAccessesAreLittleEndian : Prop :=
  ∀ (s : State) (a n : Nat) (rest : List Turn), s.rst = false → s.eng = .idle →
    (∀ v, s.turns = .write a n v :: rest → windowAccess 0x100000 s.srcCap a n →
      ∃ m : Memory, step s = .next { s with turns := rest, resp := some .written, src := m } ∧
        (∀ k < n, m.read (a - 0x100000 + k) = v.extractLsb' (8 * k) 8) ∧
        ∀ j, j < a - 0x100000 ∨ a - 0x100000 + n ≤ j → m.read j = s.src.read j) ∧
    (∀ v, s.turns = .write a n v :: rest → windowAccess 0x200000 s.dstCap a n →
      ∃ m : Memory, step s = .next { s with turns := rest, resp := some .written, dst := m } ∧
        (∀ k < n, m.read (a - 0x200000 + k) = v.extractLsb' (8 * k) 8) ∧
        ∀ j, j < a - 0x200000 ∨ a - 0x200000 + n ≤ j → m.read j = s.dst.read j) ∧
    (s.turns = .read a n :: rest → windowAccess 0x100000 s.srcCap a n →
      ∃ v, step s = .next { s with turns := rest, resp := some (.data v) } ∧
        v.toNat = ∑ k ∈ Finset.range n, (s.src.read (a - 0x100000 + k)).toNat * 256 ^ k) ∧
    (s.turns = .read a n :: rest → windowAccess 0x200000 s.dstCap a n →
      ∃ v, step s = .next { s with turns := rest, resp := some (.data v) } ∧
        v.toNat = ∑ k ∈ Finset.range n, (s.dst.read (a - 0x200000 + k)).toNat * 256 ^ k)

/-! ### Reset and the invariant -/

/-- Asserting `rst` gives every register its reset value whatever the engine was doing: a command in flight is abandoned
without a completion, DONE stays 0, and both buffers hold any value. Releasing it does so once more. While it is
asserted the engine stands still and a host access has no response (R190, R191).
That a host access is refused then is log 8, what a release does where nothing is asserted log 9, and the two draws that
give the buffers any value are log 2. -/
def Obligations.ResetAbandonsTheCommand : Prop :=
  ∀ (s : State) (rest : List Turn),
    (∀ level, s.turns = .reset level :: rest → level = true ∨ s.rst = true →
      ∃ t, step s = .next t ∧ t.AtResetValues ∧ t.rst = level ∧ t.turns = rest ∧ t.srcCapr = s.srcCapr ∧
        t.dstCapr = s.dstCapr ∧ (∀ i, t.src.read i = Config.freeByte s.draws i) ∧
        ∀ i, t.dst.read i = Config.freeByte (s.draws + 1) i) ∧
    (s.rst = true → s.turns = .engine :: rest → step s = .next { s with turns := rest }) ∧
    (∀ a, s.rst = true → s.AccessNext a rest → step s = .refused .accessDuringReset)

/-- After reset every register reads its reset value, and the capacity registers read values from 1 to 2^20, whatever
they are (R7, R37). -/
def Obligations.ResetGivesTheRegistersTheirValues : Prop :=
  State.reset.AtResetValues ∧ State.reset.rst = false ∧
    readRegister State.reset (some .id) = 0x424D0001#32 ∧
    1 ≤ (readRegister State.reset (some .srcCapr)).toNat ∧ (readRegister State.reset (some .srcCapr)).toNat ≤ 2 ^ 20 ∧
    1 ≤ (readRegister State.reset (some .dstCapr)).toNat ∧ (readRegister State.reset (some .dstCapr)).toNat ≤ 2 ^ 20

/-- The invariant holds at reset (derived from R37).
The part about draws rests on the model's choice of the draw numbers at reset (log 3). -/
def Obligations.InvariantHoldsAtReset : Prop := State.reset.Inv

/-- Every step keeps the invariant: the buffers keep their canonical form inside their capacities, the capacities their
range, the latch agrees with the registers while Busy, the announced result fits DST while Idle, an error announces no
result, and the registers hold their reset values while `rst` is asserted (derived from R7, R28, R33, R59, R152, R153,
R190).
The part about draws is the model's bookkeeping of free values (log 2). -/
def Obligations.StepKeepsTheInvariant : Prop :=
  ∀ s t : State, s.Inv → step s = .next t → t.Inv

/-! ### The laws of the operations -/

/-- Packing an unpacked buffer gives it back, under every tail policy (R104). -/
def Obligations.PackUndoesUnpack : Prop :=
  ∀ (d : Depth) (policy : TailPolicy) (bytes : List Byte), (d = .d24 → bytes.length % 3 = 0) →
    pack d policy (unpack d bytes) = .ok bytes

/-- Unpacking a packed stream gives the stream, extended with zero samples under ZERO_PAD and cut to whole groups under
DROP, and under ERROR there is no result for a partial group; at depth 8 and 24 it gives the stream (R105). -/
def Obligations.UnpackUndoesPackUpToTheTail : Prop :=
  ∀ (policy : TailPolicy) (samples : List Byte),
    (∀ d, d = .d1 ∨ d = .d4 → (∀ t ∈ samples, t.toNat < 2 ^ d.bits) →
      (samples.length % groupSize d = 0 → ∃ out, pack d policy samples = .ok out ∧ unpack d out = samples) ∧
      (samples.length % groupSize d ≠ 0 →
        match policy with
        | .error => pack d policy samples = .err .malformedBuffer
        | .zeroPad => ∃ out, pack d policy samples = .ok out ∧
            unpack d out = samples ++ List.replicate (groupSize d - samples.length % groupSize d) 0#8
        | .drop => ∃ out, pack d policy samples = .ok out ∧
            unpack d out = samples.take (samples.length - samples.length % groupSize d))) ∧
    (∀ d, d = .d8 ∨ (d = .d24 ∧ samples.length % 3 = 0) →
      ∃ out, pack d policy samples = .ok out ∧ unpack d out = samples)

/-- A successful UPSCALE multiplies the number of samples by the factor (R122). -/
def Obligations.UpscaleMultipliesTheSampleCount : Prop :=
  ∀ (raw srcCap dstCap : Nat) (l : Latch) (src out : List Byte) (d : Depth), Depth.ofRaw raw = some d →
    upscaleCommand raw srcCap dstCap l src = .ok out →
    1 ≤ l.factor.toNat ∧ sampleCount d out.length = l.factor.toNat * sampleCount d src.length ∧
      (unpack d out).length = l.factor.toNat * (unpack d src).length

/-- The three rounding policies, by what characterises them: TRUNCATE is the floor of the mean, HALF_UP the nearest
integer with halves up, HALF_EVEN the nearest with halves to even; and the mean of bytes is a byte, so Clamp never
changes it (derived from R126, R127). -/
def Obligations.RoundingIsByThePolicy : Prop :=
  ∀ s m : Nat, 1 ≤ m →
    (roundMean .truncate s m * m ≤ s ∧ s < (roundMean .truncate s m + 1) * m) ∧
    (2 * roundMean .halfUp s m * m ≤ 2 * s + m ∧ 2 * s + m < 2 * (roundMean .halfUp s m + 1) * m) ∧
    (2 * roundMean .halfEven s m * m ≤ 2 * s + m ∧ 2 * s ≤ 2 * roundMean .halfEven s m * m + m ∧
      (2 * roundMean .halfEven s m * m = 2 * s + m ∨ 2 * s = 2 * roundMean .halfEven s m * m + m →
        roundMean .halfEven s m % 2 = 0)) ∧
    (s ≤ 255 * m → ∀ policy, clampByte (roundMean policy s m) = roundMean policy s m)

/-- A 24-bit raster of `W × H` pixels grown by UPSCALE, each grown row then written `n` times, and shrunk by DOWNSCALE24
with WIDTH = `W*n` and FACTOR = `n`, is the raster again, exactly, under every rounding policy; the raster between the two
has `W*n × H*n` pixels (R129). -/
def Obligations.ShrinkUndoesTwoDimensionalGrowth : Prop :=
  ∀ (b grown : List Byte) (w h n srcCap dstCap : Nat) (l l' : Latch), 1 ≤ w → 1 ≤ n → b.length = 3 * w * h →
    l.factor.toNat = n → upscaleCommand 24 srcCap dstCap l b = .ok grown →
    l'.factor.toNat = n → l'.width.toNat = w * n → l'.srclen.toNat ≤ srcCap →
    ∀ tall : List Byte,
      (tall = (List.range h).flatMap fun y =>
        (List.replicate n ((grown.drop (3 * (w * n) * y)).take (3 * (w * n)))).flatten) →
      tall.length = 3 * (w * n) * (h * n) ∧ downscaleCommand 24 srcCap dstCap l' tall = .ok b

/-- FLIP reverses the sample order at every depth: the unpacked result is the unpacked buffer reversed sample by sample,
a triple staying intact at depth 24 (R141). -/
def Obligations.FlipReversesTheUnpackedSamples : Prop :=
  ∀ bytes : List Byte,
    (∀ d, d = .d1 ∨ d = .d4 ∨ d = .d8 → unpack d (flipBytes d bytes) = (unpack d bytes).reverse) ∧
    (bytes.length % 3 = 0 → (flipBytes .d24 bytes).length = bytes.length ∧
      ∀ t c, t < bytes.length / 3 → c < 3 →
        (flipBytes .d24 bytes)[3 * t + c]? = bytes[3 * (bytes.length / 3 - 1 - t) + c]?)

/-- FLIP is an involution at every depth (R142). -/
def Obligations.FlipIsAnInvolution : Prop :=
  ∀ (d : Depth) (bytes : List Byte), (d = .d24 → bytes.length % 3 = 0) → flipBytes d (flipBytes d bytes) = bytes
end

