-- ==== Sys2Proof/Laws/State.lean ====
section
/-! SUPPORT. One lemma for each field after each named update of State, true by rfl, so that no later proof unfolds a
record update. -/

namespace Sys2Proof.Machine

/-! ### After acceptance (R151) -/

section
variable (s : State) (w : Word)

@[simp] theorem State.accept_eng : (s.accept w).eng = .busy (s.capture w) := rfl
@[simp] theorem State.accept_ctrl : (s.accept w).ctrl = s.ctrl := rfl
@[simp] theorem State.accept_cmd : (s.accept w).cmd = w := rfl
@[simp] theorem State.accept_srcLen : (s.accept w).srcLen = s.srcLen := rfl
@[simp] theorem State.accept_factor : (s.accept w).factor = s.factor := rfl
@[simp] theorem State.accept_width : (s.accept w).width = s.width := rfl
@[simp] theorem State.accept_dstLen : (s.accept w).dstLen = 0#32 := rfl
@[simp] theorem State.accept_done : (s.accept w).done = false := rfl
@[simp] theorem State.accept_err : (s.accept w).err = none := rfl
@[simp] theorem State.accept_wbusy : (s.accept w).wbusy = s.wbusy := rfl
@[simp] theorem State.accept_srcCapr : (s.accept w).srcCapr = s.srcCapr := rfl
@[simp] theorem State.accept_dstCapr : (s.accept w).dstCapr = s.dstCapr := rfl
@[simp] theorem State.accept_src : (s.accept w).src = s.src := rfl
@[simp] theorem State.accept_dst : (s.accept w).dst = s.dst := rfl
@[simp] theorem State.accept_rst : (s.accept w).rst = s.rst := rfl
@[simp] theorem State.accept_turns : (s.accept w).turns = s.turns := rfl
@[simp] theorem State.accept_resp : (s.accept w).resp = s.resp := rfl
@[simp] theorem State.accept_draws : (s.accept w).draws = s.draws := rfl
@[simp] theorem State.accept_srcCap : (s.accept w).srcCap = s.srcCap := rfl
@[simp] theorem State.accept_dstCap : (s.accept w).dstCap = s.dstCap := rfl

end

/-! ### After a dropped write (R196) -/

section
variable (s : State)

@[simp] theorem State.dropWrite_eng : s.dropWrite.eng = s.eng := rfl
@[simp] theorem State.dropWrite_ctrl : s.dropWrite.ctrl = s.ctrl := rfl
@[simp] theorem State.dropWrite_cmd : s.dropWrite.cmd = s.cmd := rfl
@[simp] theorem State.dropWrite_srcLen : s.dropWrite.srcLen = s.srcLen := rfl
@[simp] theorem State.dropWrite_factor : s.dropWrite.factor = s.factor := rfl
@[simp] theorem State.dropWrite_width : s.dropWrite.width = s.width := rfl
@[simp] theorem State.dropWrite_dstLen : s.dropWrite.dstLen = s.dstLen := rfl
@[simp] theorem State.dropWrite_done : s.dropWrite.done = s.done := rfl
@[simp] theorem State.dropWrite_err : s.dropWrite.err = s.err := rfl
@[simp] theorem State.dropWrite_wbusy : s.dropWrite.wbusy = true := rfl
@[simp] theorem State.dropWrite_srcCapr : s.dropWrite.srcCapr = s.srcCapr := rfl
@[simp] theorem State.dropWrite_dstCapr : s.dropWrite.dstCapr = s.dstCapr := rfl
@[simp] theorem State.dropWrite_src : s.dropWrite.src = s.src := rfl
@[simp] theorem State.dropWrite_dst : s.dropWrite.dst = s.dst := rfl
@[simp] theorem State.dropWrite_rst : s.dropWrite.rst = s.rst := rfl
@[simp] theorem State.dropWrite_turns : s.dropWrite.turns = s.turns := rfl
@[simp] theorem State.dropWrite_resp : s.dropWrite.resp = s.resp := rfl
@[simp] theorem State.dropWrite_draws : s.dropWrite.draws = s.draws := rfl
@[simp] theorem State.dropWrite_srcCap : s.dropWrite.srcCap = s.srcCap := rfl
@[simp] theorem State.dropWrite_dstCap : s.dropWrite.dstCap = s.dstCap := rfl

end

/-! ### After completion with a result (R153) -/

section
variable (s : State) (out : List Byte)

@[simp] theorem State.completeOk_eng : (s.completeOk out).eng = .idle := rfl
@[simp] theorem State.completeOk_ctrl : (s.completeOk out).ctrl = s.ctrl := rfl
@[simp] theorem State.completeOk_cmd : (s.completeOk out).cmd = s.cmd := rfl
@[simp] theorem State.completeOk_srcLen : (s.completeOk out).srcLen = s.srcLen := rfl
@[simp] theorem State.completeOk_factor : (s.completeOk out).factor = s.factor := rfl
@[simp] theorem State.completeOk_width : (s.completeOk out).width = s.width := rfl
@[simp] theorem State.completeOk_dstLen : (s.completeOk out).dstLen = BitVec.ofNat 32 out.length := rfl
@[simp] theorem State.completeOk_done : (s.completeOk out).done = true := rfl
@[simp] theorem State.completeOk_err : (s.completeOk out).err = none := rfl
@[simp] theorem State.completeOk_wbusy : (s.completeOk out).wbusy = s.wbusy := rfl
@[simp] theorem State.completeOk_srcCapr : (s.completeOk out).srcCapr = s.srcCapr := rfl
@[simp] theorem State.completeOk_dstCapr : (s.completeOk out).dstCapr = s.dstCapr := rfl
@[simp] theorem State.completeOk_src : (s.completeOk out).src = s.src := rfl
@[simp] theorem State.completeOk_dst : (s.completeOk out).dst = s.dst.store 0 out := rfl
@[simp] theorem State.completeOk_rst : (s.completeOk out).rst = s.rst := rfl
@[simp] theorem State.completeOk_turns : (s.completeOk out).turns = s.turns := rfl
@[simp] theorem State.completeOk_resp : (s.completeOk out).resp = s.resp := rfl
@[simp] theorem State.completeOk_draws : (s.completeOk out).draws = s.draws := rfl
@[simp] theorem State.completeOk_srcCap : (s.completeOk out).srcCap = s.srcCap := rfl
@[simp] theorem State.completeOk_dstCap : (s.completeOk out).dstCap = s.dstCap := rfl

end

/-! ### After completion with an error (R153, R177) -/

section
variable (s : State) (k : ErrorKind)

@[simp] theorem State.completeErr_eng : (s.completeErr k).eng = .idle := rfl
@[simp] theorem State.completeErr_ctrl : (s.completeErr k).ctrl = s.ctrl := rfl
@[simp] theorem State.completeErr_cmd : (s.completeErr k).cmd = s.cmd := rfl
@[simp] theorem State.completeErr_srcLen : (s.completeErr k).srcLen = s.srcLen := rfl
@[simp] theorem State.completeErr_factor : (s.completeErr k).factor = s.factor := rfl
@[simp] theorem State.completeErr_width : (s.completeErr k).width = s.width := rfl
@[simp] theorem State.completeErr_dstLen : (s.completeErr k).dstLen = 0#32 := rfl
@[simp] theorem State.completeErr_done : (s.completeErr k).done = true := rfl
@[simp] theorem State.completeErr_err : (s.completeErr k).err = some k := rfl
@[simp] theorem State.completeErr_wbusy : (s.completeErr k).wbusy = s.wbusy := rfl
@[simp] theorem State.completeErr_srcCapr : (s.completeErr k).srcCapr = s.srcCapr := rfl
@[simp] theorem State.completeErr_dstCapr : (s.completeErr k).dstCapr = s.dstCapr := rfl
@[simp] theorem State.completeErr_src : (s.completeErr k).src = s.src := rfl
@[simp] theorem State.completeErr_dst : (s.completeErr k).dst = Memory.drawn s.draws := rfl
@[simp] theorem State.completeErr_rst : (s.completeErr k).rst = s.rst := rfl
@[simp] theorem State.completeErr_turns : (s.completeErr k).turns = s.turns := rfl
@[simp] theorem State.completeErr_resp : (s.completeErr k).resp = s.resp := rfl
@[simp] theorem State.completeErr_draws : (s.completeErr k).draws = s.draws + 1 := rfl
@[simp] theorem State.completeErr_srcCap : (s.completeErr k).srcCap = s.srcCap := rfl
@[simp] theorem State.completeErr_dstCap : (s.completeErr k).dstCap = s.dstCap := rfl

end

/-! ### After reset (R190) -/

section
variable (s : State) (level : Bool)

@[simp] theorem State.applyReset_eng : (s.applyReset level).eng = .idle := rfl
@[simp] theorem State.applyReset_ctrl : (s.applyReset level).ctrl = Ctrl.reset := rfl
@[simp] theorem State.applyReset_cmd : (s.applyReset level).cmd = 0#32 := rfl
@[simp] theorem State.applyReset_srcLen : (s.applyReset level).srcLen = 0#32 := rfl
@[simp] theorem State.applyReset_factor : (s.applyReset level).factor = 1#32 := rfl
@[simp] theorem State.applyReset_width : (s.applyReset level).width = 1#32 := rfl
@[simp] theorem State.applyReset_dstLen : (s.applyReset level).dstLen = 0#32 := rfl
@[simp] theorem State.applyReset_done : (s.applyReset level).done = false := rfl
@[simp] theorem State.applyReset_err : (s.applyReset level).err = none := rfl
@[simp] theorem State.applyReset_wbusy : (s.applyReset level).wbusy = false := rfl
@[simp] theorem State.applyReset_srcCapr : (s.applyReset level).srcCapr = s.srcCapr := rfl
@[simp] theorem State.applyReset_dstCapr : (s.applyReset level).dstCapr = s.dstCapr := rfl
@[simp] theorem State.applyReset_src : (s.applyReset level).src = Memory.drawn s.draws := rfl
@[simp] theorem State.applyReset_dst : (s.applyReset level).dst = Memory.drawn (s.draws + 1) := rfl
@[simp] theorem State.applyReset_rst : (s.applyReset level).rst = level := rfl
@[simp] theorem State.applyReset_turns : (s.applyReset level).turns = s.turns := rfl
@[simp] theorem State.applyReset_resp : (s.applyReset level).resp = none := rfl
@[simp] theorem State.applyReset_draws : (s.applyReset level).draws = s.draws + 2 := rfl
@[simp] theorem State.applyReset_srcCap : (s.applyReset level).srcCap = s.srcCap := rfl
@[simp] theorem State.applyReset_dstCap : (s.applyReset level).dstCap = s.dstCap := rfl

end

/-! ### After taking a turn (log 1) -/

section
variable (s : State) (ts : List Turn)

@[simp] theorem State.withTurns_eng : (s.withTurns ts).eng = s.eng := rfl
@[simp] theorem State.withTurns_ctrl : (s.withTurns ts).ctrl = s.ctrl := rfl
@[simp] theorem State.withTurns_cmd : (s.withTurns ts).cmd = s.cmd := rfl
@[simp] theorem State.withTurns_srcLen : (s.withTurns ts).srcLen = s.srcLen := rfl
@[simp] theorem State.withTurns_factor : (s.withTurns ts).factor = s.factor := rfl
@[simp] theorem State.withTurns_width : (s.withTurns ts).width = s.width := rfl
@[simp] theorem State.withTurns_dstLen : (s.withTurns ts).dstLen = s.dstLen := rfl
@[simp] theorem State.withTurns_done : (s.withTurns ts).done = s.done := rfl
@[simp] theorem State.withTurns_err : (s.withTurns ts).err = s.err := rfl
@[simp] theorem State.withTurns_wbusy : (s.withTurns ts).wbusy = s.wbusy := rfl
@[simp] theorem State.withTurns_srcCapr : (s.withTurns ts).srcCapr = s.srcCapr := rfl
@[simp] theorem State.withTurns_dstCapr : (s.withTurns ts).dstCapr = s.dstCapr := rfl
@[simp] theorem State.withTurns_src : (s.withTurns ts).src = s.src := rfl
@[simp] theorem State.withTurns_dst : (s.withTurns ts).dst = s.dst := rfl
@[simp] theorem State.withTurns_rst : (s.withTurns ts).rst = s.rst := rfl
@[simp] theorem State.withTurns_turns : (s.withTurns ts).turns = ts := rfl
@[simp] theorem State.withTurns_resp : (s.withTurns ts).resp = s.resp := rfl
@[simp] theorem State.withTurns_draws : (s.withTurns ts).draws = s.draws := rfl
@[simp] theorem State.withTurns_srcCap : (s.withTurns ts).srcCap = s.srcCap := rfl
@[simp] theorem State.withTurns_dstCap : (s.withTurns ts).dstCap = s.dstCap := rfl

end

/-! ### After a bus response (R55) -/

section
variable (s : State) (r : Response)

@[simp] theorem State.respond_eng : (s.respond r).eng = s.eng := rfl
@[simp] theorem State.respond_ctrl : (s.respond r).ctrl = s.ctrl := rfl
@[simp] theorem State.respond_cmd : (s.respond r).cmd = s.cmd := rfl
@[simp] theorem State.respond_srcLen : (s.respond r).srcLen = s.srcLen := rfl
@[simp] theorem State.respond_factor : (s.respond r).factor = s.factor := rfl
@[simp] theorem State.respond_width : (s.respond r).width = s.width := rfl
@[simp] theorem State.respond_dstLen : (s.respond r).dstLen = s.dstLen := rfl
@[simp] theorem State.respond_done : (s.respond r).done = s.done := rfl
@[simp] theorem State.respond_err : (s.respond r).err = s.err := rfl
@[simp] theorem State.respond_wbusy : (s.respond r).wbusy = s.wbusy := rfl
@[simp] theorem State.respond_srcCapr : (s.respond r).srcCapr = s.srcCapr := rfl
@[simp] theorem State.respond_dstCapr : (s.respond r).dstCapr = s.dstCapr := rfl
@[simp] theorem State.respond_src : (s.respond r).src = s.src := rfl
@[simp] theorem State.respond_dst : (s.respond r).dst = s.dst := rfl
@[simp] theorem State.respond_rst : (s.respond r).rst = s.rst := rfl
@[simp] theorem State.respond_turns : (s.respond r).turns = s.turns := rfl
@[simp] theorem State.respond_resp : (s.respond r).resp = some r := rfl
@[simp] theorem State.respond_draws : (s.respond r).draws = s.draws := rfl
@[simp] theorem State.respond_srcCap : (s.respond r).srcCap = s.srcCap := rfl
@[simp] theorem State.respond_dstCap : (s.respond r).dstCap = s.dstCap := rfl

end

/-! ### After a write of STATUS (R24) -/

section
variable (s : State) (v : Word)

@[simp] theorem State.clearStatus_eng : (s.clearStatus v).eng = s.eng := rfl
@[simp] theorem State.clearStatus_ctrl : (s.clearStatus v).ctrl = s.ctrl := rfl
@[simp] theorem State.clearStatus_cmd : (s.clearStatus v).cmd = s.cmd := rfl
@[simp] theorem State.clearStatus_srcLen : (s.clearStatus v).srcLen = s.srcLen := rfl
@[simp] theorem State.clearStatus_factor : (s.clearStatus v).factor = s.factor := rfl
@[simp] theorem State.clearStatus_width : (s.clearStatus v).width = s.width := rfl
@[simp] theorem State.clearStatus_dstLen : (s.clearStatus v).dstLen = s.dstLen := rfl
@[simp] theorem State.clearStatus_done : (s.clearStatus v).done = (s.done && !v.getLsbD 1) := rfl
@[simp] theorem State.clearStatus_err : (s.clearStatus v).err = s.err := rfl
@[simp] theorem State.clearStatus_wbusy : (s.clearStatus v).wbusy = (s.wbusy && !v.getLsbD 8) := rfl
@[simp] theorem State.clearStatus_srcCapr : (s.clearStatus v).srcCapr = s.srcCapr := rfl
@[simp] theorem State.clearStatus_dstCapr : (s.clearStatus v).dstCapr = s.dstCapr := rfl
@[simp] theorem State.clearStatus_src : (s.clearStatus v).src = s.src := rfl
@[simp] theorem State.clearStatus_dst : (s.clearStatus v).dst = s.dst := rfl
@[simp] theorem State.clearStatus_rst : (s.clearStatus v).rst = s.rst := rfl
@[simp] theorem State.clearStatus_turns : (s.clearStatus v).turns = s.turns := rfl
@[simp] theorem State.clearStatus_resp : (s.clearStatus v).resp = s.resp := rfl
@[simp] theorem State.clearStatus_draws : (s.clearStatus v).draws = s.draws := rfl
@[simp] theorem State.clearStatus_srcCap : (s.clearStatus v).srcCap = s.srcCap := rfl
@[simp] theorem State.clearStatus_dstCap : (s.clearStatus v).dstCap = s.dstCap := rfl

end

end Sys2Proof.Machine
end

