-- ==== Sys2Proof/Laws/Memory.lean ====
section
/-! SUPPORT. The buffers: a read after a write (R10), the bytes a load gives and a store leaves (R56), and that every
operation keeps the canonical form (log 2). -/

namespace Sys2Proof.Machine

/-! ### One byte -/

theorem cellAt_putCell_same (cells : List Host.Cell) (i : Nat) (v : Byte) : cellAt (putCell cells i v) i = some v := by
  induction cells with
  | nil => simp [putCell, cellAt]
  | cons c rest ih =>
    obtain ⟨j, b⟩ := c
    simp only [putCell]
    split
    · simp [cellAt]
    · split
      · simp [cellAt]
      · rename_i h1 h2
        simp [cellAt, Ne.symm h2, ih]

theorem cellAt_putCell_other (cells : List Host.Cell) {i k : Nat} (v : Byte) (h : k ≠ i) :
    cellAt (putCell cells i v) k = cellAt cells k := by
  induction cells with
  | nil => simp [putCell, cellAt, Ne.symm h]
  | cons c rest ih =>
    obtain ⟨j, b⟩ := c
    simp only [putCell]
    split
    · simp [cellAt, Ne.symm h]
    · split
      · rename_i h1 h2
        subst h2
        simp [cellAt, Ne.symm h]
      · simp [cellAt, ih]

@[simp] theorem Memory.write_draw (m : Memory) (i : Nat) (v : Byte) : (m.write i v).draw = m.draw := rfl

@[simp] theorem Memory.read_write_same (m : Memory) (i : Nat) (v : Byte) : (m.write i v).read i = v := by
  simp [Memory.read, Memory.write, cellAt_putCell_same]

theorem Memory.read_write_other (m : Memory) {i k : Nat} (v : Byte) (h : k ≠ i) :
    (m.write i v).read k = m.read k := by
  simp [Memory.read, Memory.write, cellAt_putCell_other _ v h, Memory.unlisted]

@[simp] theorem Memory.read_drawn (draw i : Nat) : (Memory.drawn draw).read i = Config.freeByte draw i := rfl

/-! ### Ranges -/

@[simp] theorem Memory.length_load (m : Memory) (i n : Nat) : (m.load i n).length = n := by
  induction n generalizing i with
  | zero => rfl
  | succ n ih => simp [Memory.load, ih]

theorem Memory.load_eq_map (m : Memory) (i n : Nat) : m.load i n = (List.range n).map (fun k => m.read (i + k)) := by
  induction n generalizing i with
  | zero => rfl
  | succ n ih =>
    rw [Memory.load, ih, List.range_succ_eq_map, List.map_cons, List.map_map]
    simp [Function.comp_def, Nat.add_assoc, Nat.add_comm 1]

@[simp] theorem Memory.getElem_load (m : Memory) (i n k : Nat) (h : k < (m.load i n).length) :
    (m.load i n)[k] = m.read (i + k) := by
  simp [Memory.load_eq_map]

/-- A load depends only on the bytes it reads. -/
theorem Memory.load_congr {m m' : Memory} {i n : Nat} (h : ∀ k < n, m.read (i + k) = m'.read (i + k)) :
    m.load i n = m'.load i n := by
  rw [Memory.load_eq_map, Memory.load_eq_map]
  exact List.map_congr_left fun k hk => h k (List.mem_range.mp hk)

@[simp] theorem Memory.store_draw (m : Memory) (i : Nat) (bs : List Byte) : (m.store i bs).draw = m.draw := by
  induction bs generalizing m i with
  | nil => rfl
  | cons b bs ih => simp [Memory.store, ih]

/-- A byte below a stored range is kept. -/
theorem Memory.read_store_below (m : Memory) {i k : Nat} (bs : List Byte) (h : k < i) :
    (m.store i bs).read k = m.read k := by
  induction bs generalizing m i with
  | nil => rfl
  | cons b bs ih => rw [Memory.store, ih _ (by omega), Memory.read_write_other _ _ (by omega)]

/-- A byte of a stored range is the stored one. -/
theorem Memory.read_store_inside (m : Memory) (i k : Nat) (bs : List Byte) (h : k < bs.length) :
    (m.store i bs).read (i + k) = bs[k] := by
  induction bs generalizing m i k with
  | nil => simp at h
  | cons b bs ih =>
    cases k with
    | zero => simp [Memory.store, Memory.read_store_below _ bs (Nat.lt_succ_self i)]
    | succ k =>
      have := ih (m.write i b) (i + 1) k (by simpa using h)
      simpa [Memory.store, Nat.add_assoc, Nat.add_comm 1] using this

/-- A byte past a stored range is kept. -/
theorem Memory.read_store_above (m : Memory) {i k : Nat} (bs : List Byte) (h : i + bs.length ≤ k) :
    (m.store i bs).read k = m.read k := by
  induction bs generalizing m i with
  | nil => rfl
  | cons b bs ih =>
    simp only [List.length_cons] at h
    rw [Memory.store, ih _ (by omega), Memory.read_write_other _ _ (by omega)]

/-- What was stored is what is loaded. -/
theorem Memory.load_store (m : Memory) (i : Nat) (bs : List Byte) : (m.store i bs).load i bs.length = bs := by
  apply List.ext_getElem (by simp)
  intro k h1 h2
  rw [Memory.getElem_load, Memory.read_store_inside _ _ _ _ h2]

/-! ### The canonical form -/

theorem putCell_keys {cells : List Host.Cell} {i : Nat} {v : Byte} {c : Host.Cell} (h : c ∈ putCell cells i v) :
    c.1 = i ∨ c ∈ cells := by
  induction cells with
  | nil => simp [putCell] at h; simp [h]
  | cons d rest ih =>
    obtain ⟨j, b⟩ := d
    simp only [putCell] at h
    split at h
    · simp only [List.mem_cons] at h ⊢
      rcases h with rfl | h
      · simp
      · exact .inr h
    · split at h
      · simp only [List.mem_cons] at h ⊢
        rcases h with rfl | h
        · simp
        · exact .inr (.inr h)
      · simp only [List.mem_cons] at h ⊢
        rcases h with rfl | h
        · simp
        · rcases ih h with h | h
          · exact .inl h
          · exact .inr (.inr h)

theorem putCell_rising {cells : List Host.Cell} (i : Nat) (v : Byte)
    (h : cells.Pairwise (fun a b => a.1 < b.1)) : (putCell cells i v).Pairwise (fun a b => a.1 < b.1) := by
  induction cells with
  | nil => simp [putCell]
  | cons c rest ih =>
    obtain ⟨j, b⟩ := c
    rw [List.pairwise_cons] at h
    simp only [putCell]
    split
    · rename_i hij
      rw [List.pairwise_cons, List.pairwise_cons]
      refine ⟨fun c hc => ?_, h⟩
      rcases List.mem_cons.mp hc with rfl | hc
      · exact hij
      · exact lt_trans hij (h.1 c hc)
    · split
      · rename_i h1 h2
        subst h2
        exact List.pairwise_cons.mpr h
      · rename_i h1 h2
        rw [List.pairwise_cons]
        refine ⟨fun c hc => ?_, ih h.2⟩
        rcases putCell_keys hc with hc | hc
        · rw [hc]; omega
        · exact h.1 c hc

theorem Memory.write_wf {m : Memory} {cap i : Nat} (v : Byte) (h : m.wf cap) (hi : i < cap) : (m.write i v).wf cap := by
  refine ⟨putCell_rising i v h.1, fun c hc => ?_⟩
  rcases putCell_keys hc with hc | hc
  · omega
  · exact h.2 c hc

theorem Memory.store_wf {m : Memory} {cap i : Nat} {bs : List Byte} (h : m.wf cap) (hi : i + bs.length ≤ cap) :
    (m.store i bs).wf cap := by
  induction bs generalizing m i with
  | nil => exact h
  | cons b bs ih =>
    simp only [List.length_cons] at hi
    exact ih (Memory.write_wf b h (by omega)) (by omega)

theorem Memory.drawn_wf (draw cap : Nat) : (Memory.drawn draw).wf cap := by simp [Memory.drawn, Memory.wf]

/-- Both buffers have the canonical form at reset. -/
theorem State.reset_memories_wf : State.reset.src.wf State.reset.srcCap ∧ State.reset.dst.wf State.reset.dstCap := by
  simp [State.reset, Memory.wf]

theorem cellAt_eq_none {cells : List Host.Cell} {i : Nat} (h : ∀ c ∈ cells, i < c.1) : cellAt cells i = none := by
  induction cells with
  | nil => rfl
  | cons c rest ih =>
    have hc : i < c.1 := h c (by simp)
    rw [cellAt, if_neg (by omega)]
    exact ih fun c hc => h c (by simp [hc])

theorem cells_ext {cs cs' : List Host.Cell} (hp : cs.Pairwise (fun a b => a.1 < b.1))
    (hp' : cs'.Pairwise (fun a b => a.1 < b.1)) (hc : ∀ i, cellAt cs i = cellAt cs' i) : cs = cs' := by
  induction cs generalizing cs' with
  | nil =>
    cases cs' with
    | nil => rfl
    | cons c rest => simpa [cellAt] using hc c.1
  | cons c rest ih =>
    cases cs' with
    | nil => simpa [cellAt] using hc c.1
    | cons c' rest' =>
      obtain ⟨j, b⟩ := c
      obtain ⟨j', b'⟩ := c'
      rw [List.pairwise_cons] at hp hp'
      have below : ∀ {i k : Nat} {v : Byte} {l : List Host.Cell}, i < k → (∀ a ∈ l, (k, v).1 < a.1) →
          cellAt ((k, v) :: l) i = none := fun hik hl =>
        cellAt_eq_none fun c hm => by
          rcases List.mem_cons.mp hm with rfl | hm
          · exact hik
          · exact lt_trans hik (hl c hm)
      have hjj : j = j' := by
        rcases lt_trichotomy j j' with hlt | heq | hgt
        · have := hc j
          rw [below hlt hp'.1] at this
          simp [cellAt] at this
        · exact heq
        · have := hc j'
          rw [below hgt hp.1] at this
          simp [cellAt] at this
      subst hjj
      have hb : b = b' := by simpa [cellAt] using hc j
      subst hb
      congr 1
      refine ih hp.2 hp'.2 fun i => ?_
      by_cases hi : j = i
      · subst hi
        rw [cellAt_eq_none hp.1, cellAt_eq_none hp'.1]
      · simpa [cellAt, hi] using hc i

/-- Equal contents are equal data: two buffers in canonical form of the same draw that list the same bytes are equal. -/
theorem Memory.ext_of_wf {m m' : Memory} {cap : Nat} (h : m.wf cap) (h' : m'.wf cap) (hd : m.draw = m'.draw)
    (hc : ∀ i, cellAt m.cells i = cellAt m'.cells i) : m = m' := by
  cases m
  cases m'
  simp only [Memory.mk.injEq]
  exact ⟨hd, cells_ext h.1 h'.1 hc⟩

/-! ### Little-endian words (R56) -/

@[simp] theorem length_bytesOf (n : Nat) (v : Word) : (bytesOf n v).length = n := by simp [bytesOf]

@[simp] theorem length_drawBytes (draw i n : Nat) : (drawBytes draw i n).length = n := by simp [drawBytes]

@[simp] theorem getElem_bytesOf (n : Nat) (v : Word) (k : Nat) (h : k < (bytesOf n v).length) :
    (bytesOf n v)[k] = v.extractLsb' (8 * k) 8 := by simp [bytesOf]

theorem littleEndian_lt (bs : List Byte) : littleEndian bs < 256 ^ bs.length := by
  induction bs with
  | nil => simp [littleEndian]
  | cons b bs ih =>
    have hb : b.toNat < 256 := b.isLt
    simp only [littleEndian, List.length_cons, pow_succ]
    omega

/-- The value of bytes as R56 writes it: `sum_k B[k] * 256^k`. -/
theorem littleEndian_eq_sum (bs : List Byte) :
    littleEndian bs = ∑ k ∈ Finset.range bs.length, (bs.getD k 0#8).toNat * 256 ^ k := by
  induction bs with
  | nil => rfl
  | cons b bs ih =>
    rw [littleEndian, List.length_cons, Finset.sum_range_succ', ih, Finset.mul_sum]
    simp only [List.getD_cons_succ, List.getD_cons_zero, pow_zero, mul_one]
    rw [Nat.add_comm]
    congr 1
    exact Finset.sum_congr rfl fun k _ => by rw [pow_succ]; ring

end Sys2Proof.Machine
end

