-- ==== Sys2Proof/Laws/Ops.lean ====
section
/-! SUPPORT. The shared operations of a command's life: what the engine's step answers, what the two completions leave,
and when the common checks pass (R153, R154). -/

namespace Sys2Proof.Machine

/-! ### Completion (R153) -/

/-- The engine's step with a command in flight always answers a next state. -/
theorem completeCommand_running {s : State} {l : Latch} (h : s.Running l)
    (run : Nat → Nat → Latch → List Byte → Result) :
    completeCommand run s = .next (s.complete (run s.srcCap s.dstCap l (s.source l))) := by
  simp [completeCommand, show s.eng = .busy l from h]

/-- With no command in flight it is stuck. -/
theorem completeCommand_idle {s : State} (h : s.eng = .idle) (run : Nat → Nat → Latch → List Byte → Result) :
    completeCommand run s = .fault .engineIdle := by
  simp [completeCommand, h]

@[simp] theorem State.complete_ok (s : State) (out : List Byte) : s.complete (.ok out) = s.completeOk out := rfl

@[simp] theorem State.complete_err (s : State) (k : ErrorKind) : s.complete (.err k) = s.completeErr k := rfl

theorem State.sameOutside_completeOk (s : State) (out : List Byte) : s.SameOutside (s.completeOk out) := by
  simp [State.SameOutside]

theorem State.sameOutside_completeErr (s : State) (k : ErrorKind) : s.SameOutside (s.completeErr k) := by
  simp [State.SameOutside]

theorem State.dstCap_lt (s : State) : s.dstCap < 2 ^ 32 := s.dstCapr.isLt

/-- All that a successful completion does, for a result that fits DST. -/
theorem State.completeOk_completedWith (s : State) {out : List Byte} (h : out.length ≤ s.dstCap) :
    s.CompletedWith (s.completeOk out) out.length := by
  have hlt := s.dstCap_lt
  refine ⟨rfl, rfl, rfl, ?_, fun a ha => ?_, s.sameOutside_completeOk out⟩
  · simp only [State.completeOk_dstLen, BitVec.toNat_ofNat]
    exact Nat.mod_eq_of_lt (by omega)
  · simpa using Memory.read_store_above s.dst out (i := 0) (by simpa using ha)

/-- The bytes a successful completion delivers. -/
theorem State.read_completeOk (s : State) (out : List Byte) (k : Nat) (h : k < out.length) :
    (s.completeOk out).dst.read k = out[k] := by
  simpa using Memory.read_store_inside s.dst 0 k out h

/-- All that a completion with an error does. -/
theorem State.completeErr_failedWith (s : State) (k : ErrorKind) : s.FailedWith (s.completeErr k) k :=
  ⟨rfl, rfl, rfl, rfl, fun _ => rfl, s.sameOutside_completeErr k⟩

/-- The error a completion records. -/
theorem State.complete_err_field (s : State) (r : Result) :
    (s.complete r).err = match r with | .ok _ => none | .err k => some k := by
  cases r <;> rfl

/-! ### The source (R59) -/

theorem State.source_eq_load {s : State} {l : Latch} (h : l.srclen.toNat ≤ s.srcCap) :
    s.source l = s.src.load 0 l.srclen.toNat := by
  simp [State.source, Latch.sourceLength, Nat.not_lt.mpr h]

theorem State.length_source {s : State} {l : Latch} (h : l.srclen.toNat ≤ s.srcCap) :
    (s.source l).length = l.srclen.toNat := by
  simp [State.source_eq_load h]

theorem State.getElem_source {s : State} {l : Latch} (h : l.srclen.toNat ≤ s.srcCap) (k : Nat)
    (hk : k < (s.source l).length) : (s.source l)[k] = s.src.read k := by
  have : (s.source l)[k] = (s.src.load 0 l.srclen.toNat)[k]'(by simpa [State.source_eq_load h] using hk) := by
    congr 1
    exact State.source_eq_load h
  rw [this, Memory.getElem_load, Nat.zero_add]

/-! ### The common checks (R154) -/

theorem Depth.ofRaw_bits (d : Depth) : Depth.ofRaw d.bits = some d := by cases d <;> rfl

theorem Depth.ofRaw_eq_some {raw : Nat} {d : Depth} (h : Depth.ofRaw raw = some d) : raw = d.bits := by
  simp only [Depth.ofRaw] at h
  split at h <;> simp_all <;> subst h <;> rfl

theorem Depth.ofRaw_eq_none {raw : Nat} : Depth.ofRaw raw = none ↔ raw ≠ 1 ∧ raw ≠ 4 ∧ raw ≠ 8 ∧ raw ≠ 24 := by
  simp only [Depth.ofRaw]
  split <;> simp_all

/-- `common` passes exactly when the depth is supported, the operation is defined for it, a needed factor is not 0 and
the source lies inside SRC. -/
theorem common_eq_ok {needs24 scales : Bool} {raw srcCap : Nat} {l : Latch} {d : Depth} :
    common needs24 scales raw srcCap l = .ok d ↔
      Depth.ofRaw raw = some d ∧ (needs24 = true → d = .d24) ∧ (scales = true → l.factor.toNat ≠ 0) ∧
        l.srclen.toNat ≤ srcCap := by
  unfold common Latch.scale Latch.sourceLength
  cases h : Depth.ofRaw raw with
  | none => simp
  | some d' =>
    by_cases h1 : needs24 = true ∧ d' ≠ .d24
    · simp only [if_pos h1, reduceCtorEq, Option.some.injEq, false_iff]
      rintro ⟨rfl, h2, -⟩
      exact h1.2 (h2 h1.1)
    by_cases h2 : scales = true ∧ l.factor.toNat = 0
    · simp only [if_neg h1, if_pos h2, reduceCtorEq, false_iff]
      rintro ⟨-, -, h3, -⟩
      exact h3 h2.1 h2.2
    by_cases h3 : l.srclen.toNat > srcCap
    · simp only [if_neg h1, if_neg h2, if_pos h3, reduceCtorEq, false_iff]
      rintro ⟨-, -, -, h4⟩
      omega
    · simp only [if_neg h1, if_neg h2, if_neg h3, Except.ok.injEq, Option.some.injEq]
      constructor
      · rintro rfl
        exact ⟨rfl, fun h => by by_contra hd; exact h1 ⟨h, hd⟩, fun h h' => h2 ⟨h, h'⟩, by omega⟩
      · exact fun h => h.1

@[simp] theorem afterCommon_ok (d : Depth) (law : Depth → Result) : afterCommon (.ok d) law = law d := rfl

@[simp] theorem afterCommon_error (k : ErrorKind) (law : Depth → Result) : afterCommon (.error k) law = .err k := rfl

/-- A command's result comes from its law at the depth that its checks have passed. -/
theorem afterCommon_eq_ok {c : Except ErrorKind Depth} {law : Depth → Result} {out : List Byte} :
    afterCommon c law = .ok out ↔ ∃ d, c = .ok d ∧ law d = .ok out := by
  cases c <;> simp

@[simp] theorem brokenTriples_eq_false {d : Depth} {src : List Byte} :
    brokenTriples d src = false ↔ (d = .d24 → src.length % 3 = 0) := by
  cases d <;> simp [brokenTriples]

theorem fitting_eq_ok {dstCap : Nat} {r : Result} {out : List Byte} :
    fitting dstCap r = .ok out ↔ r = .ok out ∧ out.length ≤ dstCap := by
  cases r with
  | err k => simp [fitting]
  | ok o =>
    simp only [fitting]
    split
    · rename_i h
      simp only [reduceCtorEq, Result.ok.injEq, false_iff]
      rintro ⟨rfl, h'⟩
      omega
    · rename_i h
      simp only [Result.ok.injEq]
      constructor
      · rintro rfl; exact ⟨rfl, by omega⟩
      · exact fun h => h.1

/-! ### The error of a result -/

/-- The error a result is, if it is one. -/
def Result.error? : Result → Option ErrorKind
  | .ok _ => none
  | .err k => some k

theorem State.err_complete (s : State) (r : Result) : (s.complete r).err = r.error? := by cases r <;> rfl

theorem Result.error?_fitting_ok (dstCap : Nat) (out : List Byte) :
    (fitting dstCap (.ok out)).error? = if dstCap < out.length then some .bufferOverflow else none := by
  unfold fitting
  dsimp only
  split <;> rfl

theorem factor_toNat_eq_zero {l : Latch} : l.factor.toNat = 0 ↔ l.factor = 0#32 :=
  ⟨fun h => BitVec.eq_of_toNat_eq (by simpa using h), fun h => by simp [h]⟩

/-- The common checks report the first of four errors (R154), and else the law's. -/
theorem Result.error?_afterCommon (needs24 scales : Bool) (raw srcCap : Nat) (l : Latch) (law : Depth → Result) :
    (afterCommon (common needs24 scales raw srcCap l) law).error? =
      if raw ≠ 1 ∧ raw ≠ 4 ∧ raw ≠ 8 ∧ raw ≠ 24 then some .unsupportedBitDepth
      else if needs24 = true ∧ raw ≠ 24 then some .unsupportedOperation
      else if scales = true ∧ l.factor = 0#32 then some .badFactor
      else if srcCap < l.srclen.toNat then some .malformedBuffer
      else (law (if raw = 1 then .d1 else if raw = 4 then .d4 else if raw = 8 then .d8 else .d24)).error? := by
  cases h : Depth.ofRaw raw with
  | none =>
    rw [if_pos (Depth.ofRaw_eq_none.mp h), common, h]
    rfl
  | some d =>
    have hraw := Depth.ofRaw_eq_some h
    subst hraw
    have hsup : ¬(d.bits ≠ 1 ∧ d.bits ≠ 4 ∧ d.bits ≠ 8 ∧ d.bits ≠ 24) := by cases d <;> decide
    have h24 : d.bits ≠ 24 ↔ d ≠ .d24 := by cases d <;> decide
    have hd : (if d.bits = 1 then Depth.d1 else if d.bits = 4 then .d4 else if d.bits = 8 then .d8 else .d24) = d := by
      cases d <;> rfl
    rw [if_neg hsup, hd, common, h]
    simp only [Latch.scale, Latch.sourceLength, factor_toNat_eq_zero, h24, gt_iff_lt]
    split
    · rfl
    split
    · rfl
    split <;> rfl

end Sys2Proof.Machine
end

