-- ==== Sys2Proof/Laws/BitPack.lean ====
section
/-! SUPPORT. The packing laws on one byte and one group (R101, R102), the lengths of their results, and where element
`g*j + k` of a list made of blocks of `g` elements comes from. -/

namespace Sys2Proof.Machine

/-! ### Lists made of blocks of one size -/

theorem length_flatMap_blocks {α β : Type} {g : Nat} {f : α → List β} (hf : ∀ a, (f a).length = g) (l : List α) :
    (l.flatMap f).length = g * l.length := by
  induction l with
  | nil => simp
  | cons a l ih => simp [hf, ih, Nat.mul_add, Nat.add_comm]

/-- Element `g*j + k` of the concatenation is element `k` of block `j`. -/
theorem getElem?_flatMap_blocks {α β : Type} {g : Nat} {f : α → List β} (hf : ∀ a, (f a).length = g) (l : List α)
    (j : Nat) {k : Nat} (hk : k < g) : (l.flatMap f)[g * j + k]? = l[j]?.bind fun a => (f a)[k]? := by
  induction l generalizing j with
  | nil => simp
  | cons a l ih =>
    cases j with
    | zero =>
      simp only [List.flatMap_cons, Nat.mul_zero, Nat.zero_add, List.getElem?_cons_zero, Option.bind_some]
      exact List.getElem?_append_left (by rw [hf]; exact hk)
    | succ j =>
      rw [List.flatMap_cons, List.getElem?_append_right (by rw [hf, Nat.mul_succ]; omega), hf]
      rw [show g * (j + 1) + k - g = g * j + k by rw [Nat.mul_succ]; omega, ih]
      simp

/-! ### One byte -/

@[simp] theorem length_bitSamples (b : Byte) : (bitSamples b).length = 8 := rfl

@[simp] theorem length_nibbleSamples (b : Byte) : (nibbleSamples b).length = 2 := rfl

/-- The samples of a byte at depth 1, as numbers. -/
theorem getElem?_bitSamples (b : Byte) {k : Nat} (hk : k < 8) :
    (bitSamples b)[k]? = some (BitVec.ofNat 8 (b.toNat / 2 ^ (7 - k) % 2)) := by
  revert b
  have : k = 0 ∨ k = 1 ∨ k = 2 ∨ k = 3 ∨ k = 4 ∨ k = 5 ∨ k = 6 ∨ k = 7 := by omega
  rcases this with rfl | rfl | rfl | rfl | rfl | rfl | rfl | rfl <;> decide

/-- The samples of a byte at depth 4, as numbers. -/
theorem getElem?_nibbleSamples (b : Byte) {k : Nat} (hk : k < 2) :
    (nibbleSamples b)[k]? = some (BitVec.ofNat 8 (b.toNat / 16 ^ (1 - k) % 16)) := by
  revert b
  have : k = 0 ∨ k = 1 := by omega
  rcases this with rfl | rfl <;> decide

theorem bitSample_lt (b : Byte) (i : Nat) : (bitSample b i).toNat < 2 :=
  Nat.mod_lt (b.toNat >>> i) (by decide : 0 < 2 ^ 1)

theorem bitSamples_lt (b : Byte) : ∀ t ∈ bitSamples b, t.toNat < 2 := by
  intro t ht
  simp only [bitSamples, List.mem_cons, List.not_mem_nil, or_false] at ht
  rcases ht with rfl | rfl | rfl | rfl | rfl | rfl | rfl | rfl <;> exact bitSample_lt b _

theorem nibbleSamples_lt (b : Byte) : ∀ t ∈ nibbleSamples b, t.toNat < 16 := by
  intro t ht
  simp only [nibbleSamples, List.mem_cons, List.not_mem_nil, or_false] at ht
  rcases ht with rfl | rfl
  · exact Nat.mod_lt (b.toNat >>> 4) (by decide : 0 < 2 ^ 4)
  · exact Nat.mod_lt (b.toNat >>> 0) (by decide : 0 < 2 ^ 4)

theorem packBits_group (s0 s1 s2 s3 s4 s5 s6 s7 : Byte) (rest : List Byte) :
    packBits (s0 :: s1 :: s2 :: s3 :: s4 :: s5 :: s6 :: s7 :: rest) =
      bitsByte s0 s1 s2 s3 s4 s5 s6 s7 :: packBits rest := by rw [packBits]

theorem packNibbles_group (s0 s1 : Byte) (rest : List Byte) :
    packNibbles (s0 :: s1 :: rest) = nibblesByte s0 s1 :: packNibbles rest := by rw [packNibbles]

theorem bitsByte_bitSamples : ∀ b : Byte,
    bitsByte (bitSample b 7) (bitSample b 6) (bitSample b 5) (bitSample b 4)
      (bitSample b 3) (bitSample b 2) (bitSample b 1) (bitSample b 0) = b := by decide

theorem nibblesByte_nibbleSamples : ∀ b : Byte, nibblesByte (highNibble b) (lowNibble b) = b := by decide

theorem bitSamples_bitsByte_bools : ∀ b0 b1 b2 b3 b4 b5 b6 b7 : Bool,
    bitSamples (bitsByte (BitVec.ofNat 8 b0.toNat) (BitVec.ofNat 8 b1.toNat) (BitVec.ofNat 8 b2.toNat)
      (BitVec.ofNat 8 b3.toNat) (BitVec.ofNat 8 b4.toNat) (BitVec.ofNat 8 b5.toNat) (BitVec.ofNat 8 b6.toNat)
      (BitVec.ofNat 8 b7.toNat)) =
    [BitVec.ofNat 8 b0.toNat, BitVec.ofNat 8 b1.toNat, BitVec.ofNat 8 b2.toNat, BitVec.ofNat 8 b3.toNat,
     BitVec.ofNat 8 b4.toNat, BitVec.ofNat 8 b5.toNat, BitVec.ofNat 8 b6.toNat, BitVec.ofNat 8 b7.toNat] := by
  decide

/-- A sample byte below 2 is a bit. -/
theorem byte_eq_bool {t : Byte} (h : t.toNat < 2) : ∃ b : Bool, t = BitVec.ofNat 8 b.toNat := by
  have : t.toNat = 0 ∨ t.toNat = 1 := by omega
  rcases this with h | h
  · exact ⟨false, BitVec.eq_of_toNat_eq (by simpa using h)⟩
  · exact ⟨true, BitVec.eq_of_toNat_eq (by simpa using h)⟩

theorem bitSamples_bitsByte {s0 s1 s2 s3 s4 s5 s6 s7 : Byte} (h0 : s0.toNat < 2) (h1 : s1.toNat < 2)
    (h2 : s2.toNat < 2) (h3 : s3.toNat < 2) (h4 : s4.toNat < 2) (h5 : s5.toNat < 2) (h6 : s6.toNat < 2)
    (h7 : s7.toNat < 2) :
    bitSamples (bitsByte s0 s1 s2 s3 s4 s5 s6 s7) = [s0, s1, s2, s3, s4, s5, s6, s7] := by
  obtain ⟨b0, rfl⟩ := byte_eq_bool h0
  obtain ⟨b1, rfl⟩ := byte_eq_bool h1
  obtain ⟨b2, rfl⟩ := byte_eq_bool h2
  obtain ⟨b3, rfl⟩ := byte_eq_bool h3
  obtain ⟨b4, rfl⟩ := byte_eq_bool h4
  obtain ⟨b5, rfl⟩ := byte_eq_bool h5
  obtain ⟨b6, rfl⟩ := byte_eq_bool h6
  obtain ⟨b7, rfl⟩ := byte_eq_bool h7
  exact bitSamples_bitsByte_bools b0 b1 b2 b3 b4 b5 b6 b7

theorem nibbleSamples_nibblesByte_fins : ∀ s0 s1 : Fin 16,
    nibbleSamples (nibblesByte (BitVec.ofNat 8 s0.val) (BitVec.ofNat 8 s1.val)) =
      [BitVec.ofNat 8 s0.val, BitVec.ofNat 8 s1.val] := by decide

theorem nibbleSamples_nibblesByte {s0 s1 : Byte} (h0 : s0.toNat < 16) (h1 : s1.toNat < 16) :
    nibbleSamples (nibblesByte s0 s1) = [s0, s1] := by
  simpa using nibbleSamples_nibblesByte_fins ⟨s0.toNat, h0⟩ ⟨s1.toNat, h1⟩

/-! ### Whole streams -/

/-- Packing the unpacked bits of a buffer gives the buffer back. -/
theorem packBits_unpacked (bytes : List Byte) : packBits (bytes.flatMap bitSamples) = bytes := by
  induction bytes with
  | nil => rfl
  | cons b bytes ih =>
    show packBits (bitSample b 7 :: bitSample b 6 :: bitSample b 5 :: bitSample b 4 ::
      bitSample b 3 :: bitSample b 2 :: bitSample b 1 :: bitSample b 0 :: bytes.flatMap bitSamples) = _
    rw [packBits_group, bitsByte_bitSamples, ih]

/-- Packing the unpacked nibbles of a buffer gives the buffer back. -/
theorem packNibbles_unpacked (bytes : List Byte) : packNibbles (bytes.flatMap nibbleSamples) = bytes := by
  induction bytes with
  | nil => rfl
  | cons b bytes ih =>
    show packNibbles (highNibble b :: lowNibble b :: bytes.flatMap nibbleSamples) = _
    rw [packNibbles_group, nibblesByte_nibbleSamples, ih]

/-- Unpacking packed bits gives the whole groups of them back. -/
theorem unpack_packBits {samples : List Byte} (hlen : samples.length % 8 = 0) (hlt : ∀ t ∈ samples, t.toNat < 2) :
    (packBits samples).flatMap bitSamples = samples := by
  induction samples using packBits.induct with
  | case1 s0 s1 s2 s3 s4 s5 s6 s7 rest ih =>
    have hrest := ih (by simp only [List.length_cons] at hlen; omega) fun t ht => hlt t (by simp [ht])
    rw [packBits_group, List.flatMap_cons, hrest, bitSamples_bitsByte]
    · rfl
    all_goals exact hlt _ (by simp)
  | case2 samples h =>
    match samples, h, hlen with
    | [], _, _ => rfl
    | [_], _, hlen | [_, _], _, hlen | [_, _, _], _, hlen | [_, _, _, _], _, hlen | [_, _, _, _, _], _, hlen
    | [_, _, _, _, _, _], _, hlen | [_, _, _, _, _, _, _], _, hlen => simp at hlen
    | s0 :: s1 :: s2 :: s3 :: s4 :: s5 :: s6 :: s7 :: rest, h, _ => exact (h s0 s1 s2 s3 s4 s5 s6 s7 rest rfl).elim

/-- Unpacking packed nibbles gives the whole groups of them back. -/
theorem unpack_packNibbles {samples : List Byte} (hlen : samples.length % 2 = 0)
    (hlt : ∀ t ∈ samples, t.toNat < 16) : (packNibbles samples).flatMap nibbleSamples = samples := by
  induction samples using packNibbles.induct with
  | case1 s0 s1 rest ih =>
    have hrest := ih (by simp only [List.length_cons] at hlen; omega) fun t ht => hlt t (by simp [ht])
    rw [packNibbles_group, List.flatMap_cons, hrest, nibbleSamples_nibblesByte]
    · rfl
    all_goals exact hlt _ (by simp)
  | case2 samples h =>
    match samples, h, hlen with
    | [], _, _ => rfl
    | [_], _, hlen => simp at hlen
    | s0 :: s1 :: rest, h, _ => exact (h s0 s1 rest rfl).elim

/-! ### Lengths -/

theorem length_packBits (samples : List Byte) : (packBits samples).length = samples.length / 8 := by
  induction samples using packBits.induct with
  | case1 s0 s1 s2 s3 s4 s5 s6 s7 rest ih => rw [packBits_group]; simp only [List.length_cons, ih]; omega
  | case2 samples h =>
    match samples, h with
    | [], _ | [_], _ | [_, _], _ | [_, _, _], _ | [_, _, _, _], _ | [_, _, _, _, _], _
    | [_, _, _, _, _, _], _ | [_, _, _, _, _, _, _], _ => simp [packBits]
    | s0 :: s1 :: s2 :: s3 :: s4 :: s5 :: s6 :: s7 :: rest, h => exact (h s0 s1 s2 s3 s4 s5 s6 s7 rest rfl).elim

theorem length_packNibbles (samples : List Byte) : (packNibbles samples).length = samples.length / 2 := by
  induction samples using packNibbles.induct with
  | case1 s0 s1 rest ih => rw [packNibbles_group]; simp only [List.length_cons, ih]; omega
  | case2 samples h =>
    match samples, h with
    | [], _ | [_], _ => simp [packNibbles]
    | s0 :: s1 :: rest, h => exact (h s0 s1 rest rfl).elim

theorem length_unpack (d : Depth) (bytes : List Byte) : (unpack d bytes).length = unpackedLength d bytes.length := by
  cases d
  · exact length_flatMap_blocks length_bitSamples bytes
  · exact length_flatMap_blocks length_nibbleSamples bytes
  · rfl
  · rfl

/-! ### The tail policies (R102, R107) -/

/-- How many whole groups of `g` samples are packed of a stream of `len`. -/
def packedGroups (g : Nat) (policy : TailPolicy) (len : Nat) : Nat :=
  match policy with
  | .error => len / g
  | .zeroPad => (len + g - 1) / g
  | .drop => len / g

theorem settleTail_whole {g : Nat} {policy : TailPolicy} {samples : List Byte} (h : samples.length % g = 0) :
    settleTail g policy samples = .ok samples := by simp [settleTail, h]

theorem length_settleTail {g : Nat} {policy : TailPolicy} {samples whole : List Byte} (hg : 0 < g)
    (h : settleTail g policy samples = .ok whole) : whole.length / g = packedGroups g policy samples.length := by
  unfold settleTail at h
  dsimp only at h
  have h1 := Nat.div_add_mod samples.length g
  have h2 := Nat.mod_lt samples.length hg
  unfold packedGroups
  by_cases h0 : samples.length % g = 0
  · rw [if_pos h0] at h
    cases h
    cases policy with
    | error | drop => rfl
    | zeroPad =>
      simp only
      rw [show samples.length + g - 1 = (g - 1) + g * (samples.length / g) by omega, Nat.add_mul_div_left _ _ hg,
        Nat.div_eq_of_lt (by omega : g - 1 < g), Nat.zero_add]
  · rw [if_neg h0] at h
    cases policy with
    | error => cases h
    | drop =>
      cases h
      rw [List.length_take, Nat.min_eq_left (Nat.sub_le _ _),
        show samples.length - samples.length % g = g * (samples.length / g) by omega, Nat.mul_div_cancel_left _ hg]
    | zeroPad =>
      cases h
      have e : g * (samples.length / g + 1) = g * (samples.length / g) + g := by ring
      rw [List.length_append, List.length_replicate,
        show samples.length + (g - samples.length % g) = g * (samples.length / g + 1) by omega,
        Nat.mul_div_cancel_left _ hg,
        show samples.length + g - 1 = (samples.length % g - 1) + g * (samples.length / g + 1) by omega,
        Nat.add_mul_div_left _ _ hg, Nat.div_eq_of_lt (by omega : samples.length % g - 1 < g), Nat.zero_add]

/-- A settled stream is the stream, with zero samples past its end. -/
theorem getElem_settleTail {g : Nat} {policy : TailPolicy} {samples whole : List Byte}
    (h : settleTail g policy samples = .ok whole) (m : Nat) (hm : m < whole.length) :
    whole[m] = if h : m < samples.length then samples[m] else 0#8 := by
  unfold settleTail at h
  dsimp only at h
  split at h
  · cases h
    rw [dif_pos hm]
  · cases policy with
    | error => cases h
    | zeroPad =>
      cases h
      split
      · rw [List.getElem_append_left]
      · rw [List.getElem_append_right (by omega), List.getElem_replicate]
    | drop =>
      cases h
      have : m < samples.length := by simp at hm; omega
      rw [dif_pos this]
      simp

/-- A stream that the policy settles is settled to whole groups, and stays in range. -/
theorem settleTail_eq_ok {bits g : Nat} {policy : TailPolicy} {samples : List Byte} (hg : 0 < g)
    (hr : ∀ t ∈ samples, t.toNat < 2 ^ bits) (he : policy = .error → samples.length % g = 0) :
    ∃ whole, settleTail g policy samples = .ok whole ∧ whole.length % g = 0 ∧ ∀ t ∈ whole, t.toNat < 2 ^ bits := by
  have h1 := Nat.div_add_mod samples.length g
  have h2 := Nat.mod_lt samples.length hg
  by_cases h0 : samples.length % g = 0
  · exact ⟨samples, settleTail_whole h0, h0, hr⟩
  · unfold settleTail
    dsimp only
    rw [if_neg h0]
    cases policy with
    | error => exact absurd (he rfl) h0
    | zeroPad =>
      refine ⟨_, rfl, ?_, fun t ht => ?_⟩
      · rw [List.length_append, List.length_replicate,
          show samples.length + (g - samples.length % g) = g * (samples.length / g) + g by omega]
        simp
      · rcases List.mem_append.mp ht with ht | ht
        · exact hr t ht
        · rw [List.eq_of_mem_replicate ht]
          exact Nat.two_pow_pos _
    | drop =>
      refine ⟨_, rfl, ?_, fun t ht => hr t (List.mem_of_mem_take ht)⟩
      rw [List.length_take, Nat.min_eq_left (Nat.sub_le _ _),
        show samples.length - samples.length % g = g * (samples.length / g) by omega]
      simp

/-- `Pack` at depth 1 or 4 gives its groups exactly when every sample is in range and the tail settles (R102). -/
theorem packGroups_of_settled {bits g : Nat} {group : List Byte → List Byte} {policy : TailPolicy}
    {samples whole : List Byte} (hr : ∀ t ∈ samples, t.toNat < 2 ^ bits)
    (h : settleTail g policy samples = .ok whole) : packGroups bits g group policy samples = .ok (group whole) := by
  have hany : samples.any (fun t => decide (t.toNat ≥ 2 ^ bits)) = false := by simpa using hr
  simp [packGroups, hany, h]

/-! ### The samples of a buffer as numbers (R101) -/

/-- Sample `m` of a buffer at depth 1, 4 or 8, read by arithmetic from the bytes, is element `m` of the unpacked list. -/
theorem sampleAt_eq_unpack {d : Depth} (hd : d ≠ .d24) {byte : Nat → Byte} {bytes : List Byte}
    (hb : ∀ k (h : k < bytes.length), byte k = bytes[k]) {m : Nat} (hm : m < sampleCount d bytes.length) :
    ∃ t, (unpack d bytes)[m]? = some t ∧ sampleAt d byte m = [t.toNat] := by
  cases d with
  | d1 =>
    simp only [sampleCount] at hm
    have hj : m / 8 < bytes.length := by omega
    refine ⟨BitVec.ofNat 8 ((byte (m / 8)).toNat / 2 ^ (7 - m % 8) % 2), ?_, ?_⟩
    · have := getElem?_flatMap_blocks length_bitSamples bytes (m / 8) (Nat.mod_lt m (by decide : 0 < 8))
      rw [Nat.div_add_mod] at this
      rw [unpack, this, List.getElem?_eq_getElem hj, Option.bind_some, hb _ hj]
      exact getElem?_bitSamples _ (Nat.mod_lt m (by decide))
    · simp only [sampleAt, BitVec.toNat_ofNat, List.cons.injEq, and_true]
      exact (Nat.mod_eq_of_lt (lt_trans (Nat.mod_lt _ (by decide)) (by decide))).symm
  | d4 =>
    simp only [sampleCount] at hm
    have hj : m / 2 < bytes.length := by omega
    refine ⟨BitVec.ofNat 8 ((byte (m / 2)).toNat / 16 ^ (1 - m % 2) % 16), ?_, ?_⟩
    · have := getElem?_flatMap_blocks length_nibbleSamples bytes (m / 2) (Nat.mod_lt m (by decide : 0 < 2))
      rw [Nat.div_add_mod] at this
      rw [unpack, this, List.getElem?_eq_getElem hj, Option.bind_some, hb _ hj]
      exact getElem?_nibbleSamples _ (Nat.mod_lt m (by decide))
    · simp only [sampleAt, BitVec.toNat_ofNat, List.cons.injEq, and_true]
      exact (Nat.mod_eq_of_lt (lt_trans (Nat.mod_lt _ (by decide)) (by decide))).symm
  | d8 =>
    simp only [sampleCount] at hm
    exact ⟨bytes[m], List.getElem?_eq_getElem hm, by simp [sampleAt, hb m hm]⟩
  | d24 => exact (hd rfl).elim

end Sys2Proof.Machine
end

