-- ==== Sys2Proof/Laws/Decode.lean ====
section
/-! SUPPORT. The command word's fields as numbers (R70), what the decoder's answer says of them (R75), and the fields of
an encoded command. -/

namespace Sys2Proof

/-! ### Fields as numbers -/

theorem opField_eq (w : Word) : opField w = w.toNat % 16 := by
  simp [opField, BitVec.extractLsb'_toNat]

theorem rsv0Field_eq (w : Word) : rsv0Field w = w.toNat / 2 ^ 4 % 2 ^ 4 := by
  simp [rsv0Field, BitVec.extractLsb'_toNat, Nat.shiftRight_eq_div_pow]

theorem depthField_eq (w : Word) : depthField w = w.toNat / 2 ^ 8 % 2 ^ 8 := by
  simp [depthField, BitVec.extractLsb'_toNat, Nat.shiftRight_eq_div_pow]

theorem rsv1Field_eq (w : Word) : rsv1Field w = w.toNat / 2 ^ 17 := by
  have h := w.isLt
  simp only [rsv1Field, BitVec.extractLsb'_toNat, Nat.shiftRight_eq_div_pow]
  omega

theorem shrinkField_eq (w : Word) : shrinkField w = (w.toNat / 2 ^ 16 % 2 == 1) := by
  simp [shrinkField, BitVec.getLsbD, Nat.testBit_eq_decide_div_mod_eq, BEq.beq]

/-- The word's number is the sum of its fields. -/
theorem toNat_eq_fields (w : Word) :
    w.toNat = opField w + rsv0Field w * 2 ^ 4 + depthField w * 2 ^ 8 + (shrinkField w).toNat * 2 ^ 16 +
      rsv1Field w * 2 ^ 17 := by
  have hs : (shrinkField w).toNat = w.toNat / 2 ^ 16 % 2 := by
    rw [shrinkField_eq]
    rcases Nat.mod_two_eq_zero_or_one (w.toNat / 2 ^ 16) with h | h <;> rw [h] <;> rfl
  rw [hs, opField_eq, rsv0Field_eq, depthField_eq, rsv1Field_eq]
  omega

/-! ### The encoder -/

/-- `op | (d << 8) | (s << 16)` is a sum, the fields being apart (R70). -/
theorem toNat_commandWord {op d : Nat} (s : Bool) (hop : op < 16) (hd : d < 256) :
    (commandWord op d s).toNat = op + d * 2 ^ 8 + s.toNat * 2 ^ 16 := by
  have hs : s.toNat < 2 := s.toNat_lt
  have h1 : d <<< 8 + op = d <<< 8 ||| op := Nat.shiftLeft_add_eq_or_of_lt (by omega) d
  have h2 : s.toNat <<< 16 + (d <<< 8 + op) = s.toNat <<< 16 ||| (d <<< 8 + op) :=
    Nat.shiftLeft_add_eq_or_of_lt (by rw [Nat.shiftLeft_eq]; omega) s.toNat
  have h3 : op ||| d <<< 8 ||| s.toNat <<< 16 = op + d * 2 ^ 8 + s.toNat * 2 ^ 16 := by
    rw [Nat.lor_comm op, ← h1, Nat.lor_comm, ← h2, Nat.shiftLeft_eq, Nat.shiftLeft_eq]
    omega
  rw [commandWord, h3, BitVec.toNat_ofNat]
  omega

theorem Instr.opcode_lt (i : Instr) : i.opcode < 16 := by cases i <;> simp [Instr.opcode]

theorem fields_commandWord {op d : Nat} (s : Bool) (hop : op < 16) (hd : d < 256) :
    opField (commandWord op d s) = op ∧ rsv0Field (commandWord op d s) = 0 ∧ depthField (commandWord op d s) = d ∧
      shrinkField (commandWord op d s) = s ∧ rsv1Field (commandWord op d s) = 0 := by
  have hs : s.toNat < 2 := s.toNat_lt
  rw [opField_eq, rsv0Field_eq, depthField_eq, shrinkField_eq, rsv1Field_eq, toNat_commandWord s hop hd]
  refine ⟨by omega, by omega, by omega, ?_, by omega⟩
  rw [show (op + d * 2 ^ 8 + s.toNat * 2 ^ 16) / 2 ^ 16 % 2 = s.toNat by omega]
  cases s <;> rfl

/-! ### The decoder's answer -/

theorem withoutShrink_eq_command {s : Bool} {i j : Instr} : withoutShrink s i = .command j ↔ s = false ∧ i = j := by
  cases s <;> simp [withoutShrink]

/-- All that an accepted word says: its fields are the command's, and its reserved bits are 0. -/
theorem decode_eq_command {w : Word} {i : Instr} :
    decode w = .command i ↔ rsv0Field w = 0 ∧ rsv1Field w = 0 ∧ opField w = i.opcode ∧ depthField w = i.depth ∧
      shrinkField w = i.shrink := by
  unfold decode
  by_cases h0 : rsv0Field w = 0
  swap
  · simp [h0]
  by_cases h1 : rsv1Field w = 0
  swap
  · simp [h0, h1]
  simp only [h0, h1, ne_eq, not_true_eq_false, if_false, true_and]
  generalize opField w = op
  generalize depthField w = d
  generalize shrinkField w = s
  unfold decodeOp
  split <;> cases i <;>
    simp_all [withoutShrink_eq_command, Instr.opcode, Instr.depth, Instr.shrink, and_comm]

/-- A word is rejected exactly when it is not read as a command. -/
theorem decode_rejected_iff {w : Word} : (∃ why, decode w = .rejected why) ↔ ∀ i, decode w ≠ .command i := by
  cases decode w <;> simp

/-- No two rows of the opcode table cover one word. -/
theorem opcodeRows_apart : opcodeRows.Pairwise fun r r' => r.mask &&& r'.mask &&& r.pattern ≠ r.mask &&& r'.mask &&& r'.pattern := by
  decide

end Sys2Proof
end

