-- ==== Sys2Proof/Laws/Flip.lean ====
section
/-! SUPPORT. The flipper's unit transforms (R140): each is its own inverse and reverses the samples of its unit. -/

namespace Sys2Proof.Machine

theorem bitrev_bitrev : ∀ b : Byte, bitrev (bitrev b) = b := by decide

theorem swapnib_swapnib : ∀ b : Byte, swapnib (swapnib b) = b := by decide

theorem bitSamples_bitrev : ∀ b : Byte, bitSamples (bitrev b) = (bitSamples b).reverse := by decide

theorem nibbleSamples_swapnib : ∀ b : Byte, nibbleSamples (swapnib b) = (nibbleSamples b).reverse := by decide

theorem swapTriplets_cons (a b c : Byte) (rest : List Byte) :
    swapTriplets (a :: b :: c :: rest) = c :: b :: a :: swapTriplets rest := by rw [swapTriplets]

theorem length_swapTriplets {bytes : List Byte} (h : bytes.length % 3 = 0) :
    (swapTriplets bytes).length = bytes.length := by
  induction bytes using swapTriplets.induct with
  | case1 a b c rest ih =>
    simp only [List.length_cons] at h
    rw [swapTriplets_cons]
    simp only [List.length_cons, ih (by omega)]
  | case2 bytes hs =>
    match bytes, hs, h with
    | [], _, _ => simp [swapTriplets]
    | [_], _, h | [_, _], _, h => simp at h
    | a :: b :: c :: rest, hs, _ => exact (hs a b c rest rfl).elim

/-- `out[3t+0] = R[3t+2], out[3t+1] = R[3t+1], out[3t+2] = R[3t]` (R140). -/
theorem getElem?_swapTriplets {bytes : List Byte} (hlen : bytes.length % 3 = 0) {t c : Nat}
    (ht : t < bytes.length / 3) (hc : c < 3) : (swapTriplets bytes)[3 * t + c]? = bytes[3 * t + (2 - c)]? := by
  induction bytes using swapTriplets.induct generalizing t with
  | case1 x y z rest ih =>
    simp only [List.length_cons] at hlen ht
    rw [swapTriplets_cons]
    cases t with
    | zero =>
      match c, hc with
      | 0, _ | 1, _ | 2, _ => rfl
    | succ t =>
      have := ih (by omega) (t := t) (by omega)
      rw [show 3 * (t + 1) + c = 3 * t + c + 1 + 1 + 1 by omega,
        show 3 * (t + 1) + (2 - c) = 3 * t + (2 - c) + 1 + 1 + 1 by omega]
      simpa using this
  | case2 bytes hs =>
    match bytes, hs, hlen, ht with
    | [], _, _, ht => simp at ht
    | [_], _, hlen, _ | [_, _], _, hlen, _ => simp at hlen
    | a :: b :: c :: rest, hs, _, _ => exact (hs a b c rest rfl).elim

theorem length_flip {d : Depth} {bytes : List Byte} (h : d = .d24 → bytes.length % 3 = 0) :
    (flipBytes d bytes).length = bytes.length := by
  cases d with
  | d1 | d4 | d8 => simp [flipBytes]
  | d24 => simpa [flipBytes] using length_swapTriplets (bytes := bytes.reverse) (by simpa using h rfl)

end Sys2Proof.Machine
end

