-- ==== Sys2Proof/Laws/PerInstr.lean ====
section
/-! SUPPORT. Statements made per command: the fields of an encoded command. -/

namespace Sys2Proof.Laws.EncodeFields

/-- The word of a command that fits it holds the command's opcode, DEPTH and SHRINK in their fields and zeros in the
reserved ones (R70). -/
def Statement (i : Instr) : Prop :=
  i.wf = true → opField (encode i) = i.opcode ∧ rsv0Field (encode i) = 0 ∧ depthField (encode i) = i.depth ∧
    shrinkField (encode i) = i.shrink ∧ rsv1Field (encode i) = 0

/-- The case all commands share. -/
theorem of_commandWord (i : Instr) : Statement i := fun h =>
  fields_commandWord i.shrink i.opcode_lt (by simpa [Instr.wf] using h)

theorem unpack (d : Nat) : Statement (.unpack d) := of_commandWord _

theorem pack (d : Nat) : Statement (.pack d) := of_commandWord _

theorem upscale (d : Nat) : Statement (.upscale d) := of_commandWord _

theorem downscale24 (d : Nat) : Statement (.downscale24 d) := of_commandWord _

theorem resize (d : Nat) (s : Bool) : Statement (.resize d s) := of_commandWord _

theorem flip (d : Nat) : Statement (.flip d) := of_commandWord _

end Sys2Proof.Laws.EncodeFields
end

