-- ==== Sys2Proof/Laws/Resample.lean ====
section
/-! SUPPORT. The resampler's functions (41_resample.md): where an element of a replicated stream comes from (R120), what
UPSCALE packs (R121), the block sum as a sum (R125), the bounds of rounding (R126, R127), and the elements of a shrunk
raster (R127, R128). -/

namespace Sys2Proof.Machine

/-! ### Repetition -/

theorem length_flatten_replicate {α : Type} (n : Nat) (x : List α) :
    (List.replicate n x).flatten.length = x.length * n := by
  simp [Nat.mul_comm]

theorem getElem?_flatten_replicate {α : Type} {n j k : Nat} (x : List α) (hj : j < n) (hk : k < x.length) :
    ((List.replicate n x).flatten)[x.length * j + k]? = x[k]? := by
  induction n generalizing j with
  | zero => omega
  | succ n ih =>
    rw [List.replicate_succ, List.flatten_cons]
    cases j with
    | zero => simpa using List.getElem?_append_left hk
    | succ j =>
      rw [List.getElem?_append_right (by rw [Nat.mul_succ]; omega),
        show x.length * (j + 1) + k - x.length = x.length * j + k by rw [Nat.mul_succ]; omega]
      exact ih (by omega)

/-- Element `m` of a list with each element repeated `n` times is element `m / n`. -/
theorem getElem?_flatMap_replicate {α : Type} {n : Nat} (hn : 1 ≤ n) (l : List α) (m : Nat) :
    (l.flatMap (List.replicate n))[m]? = l[m / n]? := by
  have h := getElem?_flatMap_blocks (f := List.replicate n) (fun a => List.length_replicate) l (m / n)
    (Nat.mod_lt m hn)
  rw [Nat.div_add_mod] at h
  rw [h]
  cases l[m / n]? with
  | none => rfl
  | some a => simp [Nat.mod_lt m hn]

theorem repeatTriples_cons (n : Nat) (a b c : Byte) (rest : List Byte) :
    repeatTriples n (a :: b :: c :: rest) = (List.replicate n [a, b, c]).flatten ++ repeatTriples n rest := by
  rw [repeatTriples]

theorem length_repeatTriples {n : Nat} {samples : List Byte} (h : samples.length % 3 = 0) :
    (repeatTriples n samples).length = n * samples.length := by
  induction samples using repeatTriples.induct with
  | case1 a b c rest ih =>
    simp only [List.length_cons] at h
    rw [repeatTriples_cons, List.length_append, length_flatten_replicate, ih (by omega)]
    simp only [List.length_cons, List.length_nil]
    ring
  | case2 samples hs =>
    match samples, hs, h with
    | [], _, _ => simp [repeatTriples]
    | [_], _, h | [_, _], _, h => simp at h
    | a :: b :: c :: rest, hs, _ => exact (hs a b c rest rfl).elim

/-- Channel `c` of triple `m` of the replicated stream is channel `c` of triple `m / n` (R121). -/
theorem getElem?_repeatTriples {n : Nat} {samples : List Byte} (hlen : samples.length % 3 = 0) {m c : Nat}
    (hm : m < n * (samples.length / 3)) (hc : c < 3) :
    (repeatTriples n samples)[3 * m + c]? = samples[3 * (m / n) + c]? := by
  induction samples using repeatTriples.induct generalizing m with
  | case1 x y z rest ih =>
    simp only [List.length_cons] at hlen hm
    have hq : (rest.length + 1 + 1 + 1) / 3 = rest.length / 3 + 1 := by omega
    rw [hq, Nat.mul_succ] at hm
    have hn : 0 < n := Nat.pos_of_ne_zero fun h => by simp [h] at hm
    have hl : ((List.replicate n [x, y, z]).flatten).length = 3 * n := length_flatten_replicate n [x, y, z]
    rw [repeatTriples_cons]
    by_cases h : m < n
    · rw [List.getElem?_append_left (by omega), Nat.div_eq_of_lt h]
      have := getElem?_flatten_replicate [x, y, z] h (k := c) hc
      simp only [List.length_cons, List.length_nil, Nat.zero_add, Nat.reduceAdd] at this
      rw [this]
      match c, hc with
      | 0, _ | 1, _ | 2, _ => rfl
    · have hmn : m / n = (m - n) / n + 1 := Nat.div_eq_sub_div hn (by omega)
      rw [List.getElem?_append_right (by omega), hl, show 3 * m + c - 3 * n = 3 * (m - n) + c by omega,
        ih (by omega) (by omega), hmn, show 3 * ((m - n) / n + 1) + c = 3 * ((m - n) / n) + c + 1 + 1 + 1 by omega]
      simp
  | case2 samples hs =>
    match samples, hs, hlen, hm with
    | [], _, _, hm => simp at hm
    | [_], _, hlen, _ | [_, _], _, hlen, _ => simp at hlen
    | a :: b :: c :: rest, hs, _, _ => exact (hs a b c rest rfl).elim

/-! ### Packing whole groups -/

/-- A stream of whole groups in range packs, whatever the tail policy (R104). -/
theorem packGroups_whole {bits g : Nat} {group : List Byte → List Byte} {policy : TailPolicy} {samples : List Byte}
    (hr : ∀ t ∈ samples, t.toNat < 2 ^ bits) (hg : samples.length % g = 0) :
    packGroups bits g group policy samples = .ok (group samples) := by
  have hany : samples.any (fun t => decide (t.toNat ≥ 2 ^ bits)) = false := by
    rw [List.any_eq_false]
    intro t ht
    simpa using hr t ht
  simp [packGroups, hany, settleTail, hg]

/-- UPSCALE's packing cannot fail: what it packs unpacks to the replicated samples (R121). -/
theorem pack_repeated (d : Depth) (n : Nat) (bytes : List Byte) (hd : d = .d24 → bytes.length % 3 = 0) :
    ∃ out, pack d .error (repeatSamples d n (unpack d bytes)) = .ok out ∧ out.length = n * bytes.length ∧
      unpack d out = repeatSamples d n (unpack d bytes) := by
  cases d with
  | d1 =>
    have hlt : ∀ t ∈ (bytes.flatMap bitSamples).flatMap (List.replicate n), t.toNat < 2 := by
      intro t ht
      obtain ⟨u, hu, ht⟩ := List.mem_flatMap.mp ht
      obtain ⟨b, -, hu⟩ := List.mem_flatMap.mp hu
      rw [(List.mem_replicate.mp ht).2]
      exact bitSamples_lt b u hu
    have hlen : ((bytes.flatMap bitSamples).flatMap (List.replicate n)).length = 8 * (n * bytes.length) := by
      rw [length_flatMap_blocks (fun a => List.length_replicate), length_flatMap_blocks length_bitSamples]
      ring
    refine ⟨packBits ((bytes.flatMap bitSamples).flatMap (List.replicate n)), ?_, ?_, ?_⟩
    · have hg : ((bytes.flatMap bitSamples).flatMap (List.replicate n)).length % 8 = 0 := by rw [hlen]; omega
      exact packGroups_whole hlt hg
    · rw [length_packBits, hlen]; omega
    · exact unpack_packBits (by omega) hlt
  | d4 =>
    have hlt : ∀ t ∈ (bytes.flatMap nibbleSamples).flatMap (List.replicate n), t.toNat < 16 := by
      intro t ht
      obtain ⟨u, hu, ht⟩ := List.mem_flatMap.mp ht
      obtain ⟨b, -, hu⟩ := List.mem_flatMap.mp hu
      rw [(List.mem_replicate.mp ht).2]
      exact nibbleSamples_lt b u hu
    have hlen : ((bytes.flatMap nibbleSamples).flatMap (List.replicate n)).length = 2 * (n * bytes.length) := by
      rw [length_flatMap_blocks (fun a => List.length_replicate), length_flatMap_blocks length_nibbleSamples]
      ring
    refine ⟨packNibbles ((bytes.flatMap nibbleSamples).flatMap (List.replicate n)), ?_, ?_, ?_⟩
    · have hg : ((bytes.flatMap nibbleSamples).flatMap (List.replicate n)).length % 2 = 0 := by rw [hlen]; omega
      exact packGroups_whole hlt hg
    · rw [length_packNibbles, hlen]; omega
    · exact unpack_packNibbles (by omega) hlt
  | d8 => exact ⟨_, rfl, length_flatMap_blocks (fun a => List.length_replicate) bytes, rfl⟩
  | d24 =>
    have hlen := length_repeatTriples (n := n) (hd rfl)
    have h3 : (repeatTriples n bytes).length % 3 = 0 := by rw [hlen, Nat.mul_mod, hd rfl]; simp
    refine ⟨repeatTriples n bytes, ?_, hlen, rfl⟩
    show (if brokenTriples .d24 (repeatTriples n bytes) = true then _ else _) = _
    rw [brokenTriples_eq_false.mpr (fun _ => h3)]
    rfl

/-! ### Block sums and rounding -/

theorem sum_map_range (n : Nat) (f : Nat → Nat) : ((List.range n).map f).sum = ∑ i ∈ Finset.range n, f i := by
  induction n with
  | zero => rfl
  | succ n ih => simp [List.range_succ, Finset.sum_range_succ, ih]

/-- The block sum (R125) as a double sum. -/
theorem blockSum_eq_sum (src : List Byte) (w n c x y : Nat) :
    blockSum src w n c x y =
      ∑ dy ∈ Finset.range n, ∑ dx ∈ Finset.range n, channel src c ((y * n + dy) * w + x * n + dx) := by
  simp only [blockSum, sum_map_range]

/-- "`sum_c <= 255 * n²`" (R125). -/
theorem blockSum_le (src : List Byte) (w n c x y : Nat) : blockSum src w n c x y ≤ 255 * (n * n) := by
  rw [blockSum_eq_sum]
  have hb : ∀ p, channel src c p ≤ 255 := fun p => by
    have := (src.getD (3 * p + c) 0#8).isLt
    unfold channel
    omega
  calc _ ≤ ∑ _dy ∈ Finset.range n, ∑ _dx ∈ Finset.range n, 255 :=
        Finset.sum_le_sum fun dy _ => Finset.sum_le_sum fun dx _ => hb _
    _ = 255 * (n * n) := by simp; ring

/-- A rounded mean lies between the floor of the mean and one more, the latter only where something is left over. -/
theorem roundMean_bounds (policy : Rounding) (s m : Nat) (hm : 1 ≤ m) :
    s / m ≤ roundMean policy s m ∧ roundMean policy s m ≤ s / m + 1 ∧
      (s % m = 0 → roundMean policy s m = s / m) := by
  have hlt : s % m < m := Nat.mod_lt s hm
  unfold roundMean
  generalize s / m = q
  generalize s % m = r at hlt
  cases policy with
  | truncate => simp
  | halfUp => refine ⟨?_, ?_, fun h => ?_⟩ <;> simp only [] <;> split <;> omega
  | halfEven => refine ⟨?_, ?_, fun h => ?_⟩ <;> simp only [] <;> split <;> omega

/-- "Because each channel value is at most 255, the rounded mean is at most 255" (R127). -/
theorem roundMean_le (policy : Rounding) {s m : Nat} (hm : 1 ≤ m) (h : s ≤ 255 * m) : roundMean policy s m ≤ 255 := by
  obtain ⟨-, h2, h3⟩ := roundMean_bounds policy s m hm
  have hle : s / m ≤ 255 := Nat.div_le_of_le_mul (by rw [Nat.mul_comm]; exact h)
  rcases Nat.lt_or_ge (s / m) 255 with hlt | hge
  · omega
  · have hq : s / m = 255 := by omega
    have hmod : s % m = 0 := by
      have := Nat.div_add_mod s m
      rw [hq, Nat.mul_comm m 255] at this
      omega
    rw [h3 hmod, hq]

/-! ### Geometry (R124) -/

theorem rasterFits_iff {src : List Byte} {w n : Nat} : rasterFits src w n = true ↔ geometry src.length w n := by
  simp [rasterFits, geometry, pixelCount, and_assoc]

/-- The length of a shrunk raster: "`len(S) / n²`" (R128). -/
theorem geometry_length {len w n : Nat} (hn : 1 ≤ n) (h : geometry len w n) :
    3 * (w / n) * (len / 3 / w / n) = len / (n * n) := by
  obtain ⟨h1, h2, h3, h4, h5⟩ := h
  have e1 : 3 * (len / 3) = len := Nat.mul_div_cancel' (Nat.dvd_of_mod_eq_zero h1)
  have e2 : w * (len / 3 / w) = len / 3 := Nat.mul_div_cancel' (Nat.dvd_of_mod_eq_zero h4)
  have e3 : n * (w / n) = w := Nat.mul_div_cancel' (Nat.dvd_of_mod_eq_zero h3)
  have e4 : n * (len / 3 / w / n) = len / 3 / w := Nat.mul_div_cancel' (Nat.dvd_of_mod_eq_zero h5)
  have e : len = (n * n) * (3 * (w / n) * (len / 3 / w / n)) := by
    calc len = 3 * (w * (len / 3 / w)) := by rw [e2, e1]
      _ = 3 * ((n * (w / n)) * (n * (len / 3 / w / n))) := by rw [e3, e4]
      _ = _ := by ring
  exact (Nat.div_eq_of_eq_mul_right (Nat.mul_pos hn hn) e).symm

/-! ### The shrunk raster -/

@[simp] theorem length_blockPixel (policy : Rounding) (src : List Byte) (w n x y : Nat) :
    (blockPixel policy src w n x y).length = 3 := by simp [blockPixel]

theorem length_shrinkRow (policy : Rounding) (src : List Byte) (w n y : Nat) :
    ((List.range (w / n)).flatMap fun x => blockPixel policy src w n x y).length = 3 * (w / n) := by
  rw [length_flatMap_blocks (g := 3) (fun x => length_blockPixel policy src w n x y), List.length_range]

theorem length_shrink (policy : Rounding) (src : List Byte) (w n : Nat) :
    (shrink policy src w n).length = 3 * (w / n) * (pixelCount src / w / n) := by
  unfold shrink
  rw [length_flatMap_blocks (fun y => length_shrinkRow policy src w n y), List.length_range]

/-- Channel `c` of output pixel `(x, y)` of a shrunk raster (R127). -/
theorem getElem?_shrink (policy : Rounding) (src : List Byte) {w n x y c : Nat} (hn : 1 ≤ n) (hx : x < w / n)
    (hy : y < pixelCount src / w / n) (hc : c < 3) :
    (shrink policy src w n)[3 * (y * (w / n) + x) + c]? =
      some (BitVec.ofNat 8 (roundMean policy (blockSum src w n c x y) (n * n))) := by
  have hclamp : clampByte (roundMean policy (blockSum src w n c x y) (n * n)) =
      roundMean policy (blockSum src w n c x y) (n * n) := by
    have := roundMean_le policy (Nat.mul_pos hn hn) (blockSum_le src w n c x y)
    unfold clampByte
    omega
  have houter := getElem?_flatMap_blocks (fun y => length_shrinkRow policy src w n y)
    (List.range (pixelCount src / w / n)) y (k := 3 * x + c) (by omega)
  have hinner := getElem?_flatMap_blocks (fun x => length_blockPixel policy src w n x y)
    (List.range (w / n)) x hc
  rw [show 3 * (y * (w / n) + x) + c = 3 * (w / n) * y + (3 * x + c) by ring]
  unfold shrink
  rw [houter, List.getElem?_range hy, Option.bind_some, hinner, List.getElem?_range hx, Option.bind_some]
  simp [blockPixel, List.getElem?_range hc, hclamp]

end Sys2Proof.Machine
end

