-- ==== Sys2Proof/Laws/Step.lean ====
section
/-! SUPPORT. What a command's function gives and what a step can do, said once: the meaning of each command as a pure
function (R11, R156), the accesses the bus serves (R51 to R55), and the cases of a step. -/

namespace Sys2Proof.Machine

/-! ### Commands -/

/-- The pure function of a command (R156). -/
def commandOf : Instr → Nat → Nat → Latch → List Byte → Result
  | .unpack d => unpackCommand d
  | .pack d => packCommand d
  | .upscale d => upscaleCommand d
  | .downscale24 d => downscaleCommand d
  | .resize d sh => resizeCommand d sh
  | .flip d => flipCommand d

theorem exec_eq_completeCommand (i : Instr) (s : State) : exec i s = completeCommand (commandOf i) s := by
  cases i <;> rfl

/-- A command in flight completes: its meaning answers a next state, always. -/
theorem exec_running {s : State} {l : Latch} (h : s.Running l) (i : Instr) :
    exec i s = .next (s.complete (commandOf i s.srcCap s.dstCap l (s.source l))) := by
  rw [exec_eq_completeCommand, completeCommand_running h]

theorem length_of_upscale_ok {raw srcCap dstCap : Nat} {l : Latch} {src out : List Byte}
    (h : upscaleCommand raw srcCap dstCap l src = .ok out) :
    ∃ d, Depth.ofRaw raw = some d ∧ 1 ≤ l.factor.toNat ∧ (d = .d24 → src.length % 3 = 0) ∧
      l.factor.toNat * src.length ≤ dstCap ∧ out.length = l.factor.toNat * src.length ∧
      unpack d out = repeatSamples d l.factor.toNat (unpack d src) := by
  obtain ⟨d, hc, hlaw⟩ := afterCommon_eq_ok.mp h
  obtain ⟨hd, -, hn, -⟩ := common_eq_ok.mp hc
  by_cases hb : brokenTriples d src = true
  · simp [hb] at hlaw
  rw [Bool.not_eq_true] at hb
  by_cases ho : l.scale * src.length > dstCap
  · simp [hb, ho] at hlaw
  simp only [hb, Bool.false_eq_true, if_false, if_neg ho] at hlaw
  obtain ⟨out', hp, hlen, hu⟩ := pack_repeated d l.scale src (brokenTriples_eq_false.mp hb)
  rw [hp] at hlaw
  cases hlaw
  exact ⟨d, hd, Nat.pos_of_ne_zero (hn rfl), brokenTriples_eq_false.mp hb, Nat.not_lt.mp ho, hlen, hu⟩

theorem length_of_downscale_ok {raw srcCap dstCap : Nat} {l : Latch} {src out : List Byte}
    (h : downscaleCommand raw srcCap dstCap l src = .ok out) : out.length ≤ dstCap := by
  obtain ⟨d, -, hlaw⟩ := afterCommon_eq_ok.mp h
  dsimp only [shrinkLaw] at hlaw
  split at hlaw
  · split at hlaw
    · cases hlaw
    · cases hlaw
      rw [length_shrink]
      omega
  · cases hlaw

/-- Every result fits DST: "len(out) <= DST_CAP is guaranteed" (R153). -/
theorem length_of_command_ok {i : Instr} {srcCap dstCap : Nat} {l : Latch} {src out : List Byte}
    (h : commandOf i srcCap dstCap l src = .ok out) : out.length ≤ dstCap := by
  cases i with
  | unpack raw =>
    obtain ⟨d, -, hlaw⟩ := afterCommon_eq_ok.mp h
    split at hlaw
    · cases hlaw
    · exact (fitting_eq_ok.mp hlaw).2
  | pack raw =>
    obtain ⟨d, -, hlaw⟩ := afterCommon_eq_ok.mp h
    exact (fitting_eq_ok.mp hlaw).2
  | upscale raw =>
    obtain ⟨d, -, -, -, hle, hlen, -⟩ := length_of_upscale_ok h
    omega
  | downscale24 raw => exact length_of_downscale_ok h
  | resize raw sh =>
    obtain ⟨d, -, hlaw⟩ := afterCommon_eq_ok.mp h
    cases sh with
    | true => exact length_of_downscale_ok (by simpa using hlaw)
    | false =>
      obtain ⟨d, -, -, -, hle, hlen, -⟩ := length_of_upscale_ok (by simpa using hlaw)
      omega
  | flip raw =>
    obtain ⟨d, -, hlaw⟩ := afterCommon_eq_ok.mp h
    split at hlaw
    · cases hlaw
    · rename_i hb
      rw [Bool.not_eq_true] at hb
      split at hlaw
      · cases hlaw
      · cases hlaw
        rw [length_flip (brokenTriples_eq_false.mp hb)]
        omega

/-- The common checks of a ready command pass. -/
theorem common_of_ready {s : State} {l : Latch} {raw : Nat} {d : Depth} (h : s.Ready l raw d) (needs24 scales : Bool)
    (h24 : needs24 = true → d = .d24) (hn : scales = true → l.factor.toNat ≠ 0) :
    common needs24 scales raw s.srcCap l = .ok d :=
  common_eq_ok.mpr ⟨h.2.1, h24, hn, h.2.2⟩

/-- A command whose function gives a result completes with it. -/
theorem exec_of_ok {s : State} {l : Latch} {i : Instr} {out : List Byte} (h : s.Running l)
    (hr : commandOf i s.srcCap s.dstCap l (s.source l) = .ok out) :
    exec i s = .next (s.completeOk out) ∧ s.CompletedWith (s.completeOk out) out.length := by
  rw [exec_running h, hr]
  exact ⟨rfl, s.completeOk_completedWith (length_of_command_ok hr)⟩

/-! ### The bus -/

theorem placeOf_eq_none {a : Nat} : placeOf a = none ↔ 0x400000 ≤ a := by
  unfold placeOf
  repeat' split
  all_goals simp only [reduceCtorEq, false_iff, true_iff]; omega

/-- Where an offset of the region lies. -/
theorem placeOf_cases {a : Nat} (h : a < 0x400000) :
    (a < 0x100000 ∧ placeOf a = some (.page a)) ∨
      (0x100000 ≤ a ∧ a < 0x200000 ∧ placeOf a = some (.src (a - 0x100000))) ∨
      (0x200000 ≤ a ∧ a < 0x300000 ∧ placeOf a = some (.dst (a - 0x200000))) ∨
      (0x300000 ≤ a ∧ placeOf a = some .reserved) := by
  unfold placeOf
  repeat' split
  all_goals first | (exact .inl ⟨‹_›, rfl⟩) | skip
  · exact .inr (.inl ⟨by omega, by omega, rfl⟩)
  · exact .inr (.inr (.inl ⟨by omega, by omega, rfl⟩))
  · exact .inr (.inr (.inr ⟨by omega, rfl⟩))

theorem placeOf_page {a : Nat} (h : a < 0x100000) : placeOf a = some (.page a) := by simp [placeOf, h]

theorem placeOf_src {a : Nat} (h : 0x100000 ≤ a) (h' : a < 0x100000 + 0x100000) :
    placeOf a = some (.src (a - 0x100000)) := by
  rcases placeOf_cases (a := a) (by omega) with h1 | h1 | h1 | h1
  · omega
  · exact h1.2.2
  · omega
  · omega

theorem placeOf_dst {a : Nat} (h : 0x200000 ≤ a) (h' : a < 0x200000 + 0x100000) :
    placeOf a = some (.dst (a - 0x200000)) := by
  rcases placeOf_cases (a := a) (by omega) with h1 | h1 | h1 | h1
  · omega
  · omega
  · exact h1.2.2
  · omega

theorem placeOf_reserved {a : Nat} (h : 0x300000 ≤ a) (h' : a < 0x400000) : placeOf a = some .reserved := by
  rcases placeOf_cases h' with h1 | h1 | h1 | h1
  · omega
  · omega
  · omega
  · exact h1.2

/-- The bus serves exactly the legal accesses (R51 to R54). -/
theorem accessLegal_iff {s : State} {a n : Nat} {p : Place} (hp : placeOf a = some p) :
    accessLegal s p a n = true ↔ s.Serves a n := by
  have ha : a < 0x400000 := by
    by_contra hn
    rw [placeOf_eq_none.mpr (by omega)] at hp
    cases hp
  rcases placeOf_cases ha with ⟨h1, h⟩ | ⟨h1, h2, h⟩ | ⟨h1, h2, h⟩ | ⟨h1, h⟩ <;> rw [h] at hp <;> cases hp <;>
    simp only [accessLegal, State.Serves, Bool.and_eq_true, Bool.or_eq_true, beq_iff_eq, decide_eq_true_eq,
      and_true]
  · constructor
    · rintro ⟨⟨-, hm⟩, rfl⟩
      exact .inl ⟨rfl, hm, h1⟩
    · rintro (⟨rfl, hm, -⟩ | ⟨-, h, -⟩ | ⟨-, h, -⟩ | ⟨-, h, -⟩)
      · exact ⟨⟨by simp, hm⟩, rfl⟩
      all_goals omega
  · constructor
    · rintro ⟨⟨hn, hm⟩, hc⟩
      exact .inr (.inl ⟨⟨by tauto, hm⟩, h1, by omega, hc⟩)
    · rintro (⟨-, -, h⟩ | ⟨⟨hn, hm⟩, -, -, hc⟩ | ⟨-, h, -⟩ | ⟨-, h, -⟩)
      · omega
      · exact ⟨⟨by tauto, hm⟩, hc⟩
      all_goals omega
  · constructor
    · rintro ⟨⟨hn, hm⟩, hc⟩
      exact .inr (.inr (.inl ⟨⟨by tauto, hm⟩, h1, by omega, hc⟩))
    · rintro (⟨-, -, h⟩ | ⟨-, -, h, -⟩ | ⟨⟨hn, hm⟩, -, -, hc⟩ | ⟨-, h, -⟩)
      · omega
      · omega
      · exact ⟨⟨by tauto, hm⟩, hc⟩
      · omega
  · constructor
    · rintro ⟨hn, hm⟩
      exact .inr (.inr (.inr ⟨⟨by tauto, hm⟩, h1, ha⟩))
    · rintro (⟨-, -, h⟩ | ⟨-, -, h, -⟩ | ⟨-, -, h, -⟩ | ⟨⟨hn, hm⟩, -, -⟩)
      · omega
      · omega
      · omega
      · exact ⟨by tauto, hm⟩

/-- A host access while `rst` is asserted is refused. -/
theorem hostAccess_reset {s : State} (h : s.rst = true) (a n : Nat) (serve : Place → State) :
    hostAccess a n serve s = .refused .accessDuringReset := by simp [hostAccess, h]

theorem hostAccess_outside {s : State} (h : s.rst = false) {a : Nat} (ha : 0x400000 ≤ a) (n : Nat)
    (serve : Place → State) : hostAccess a n serve s = .fault .outsideRegion := by
  simp [hostAccess, h, placeOf_eq_none.mpr ha]

theorem hostAccess_busError {s : State} (h : s.rst = false) {a n : Nat} (ha : a < 0x400000) (hs : ¬ s.Serves a n)
    (serve : Place → State) : hostAccess a n serve s = .next (s.respond .busError) := by
  cases hp : placeOf a with
  | none => rw [placeOf_eq_none] at hp; omega
  | some p =>
    have hl : accessLegal s p a n = false := by
      rw [← Bool.not_eq_true, accessLegal_iff hp]
      exact hs
    simp [hostAccess, h, hp, hl]

theorem hostAccess_served {s : State} (h : s.rst = false) {a n : Nat} {p : Place} (hp : placeOf a = some p)
    (hs : s.Serves a n) (serve : Place → State) : hostAccess a n serve s = .next (serve p) := by
  simp [hostAccess, h, hp, (accessLegal_iff hp).mpr hs]

/-- All that a host access answering a next state can be: BusError, or the access served. -/
theorem hostAccess_next {s t : State} {a n : Nat} {serve : Place → State} (h : hostAccess a n serve s = .next t) :
    s.rst = false ∧ a < 0x400000 ∧
      ((¬ s.Serves a n ∧ t = s.respond .busError) ∨ ∃ p, placeOf a = some p ∧ s.Serves a n ∧ t = serve p) := by
  have hr : s.rst = false := by
    by_contra hr
    rw [Bool.not_eq_false] at hr
    rw [hostAccess_reset hr] at h
    cases h
  have ha : a < 0x400000 := by
    by_contra ha
    rw [hostAccess_outside hr (by omega)] at h
    cases h
  refine ⟨hr, ha, ?_⟩
  by_cases hs : s.Serves a n
  · cases hp : placeOf a with
    | none => rw [placeOf_eq_none] at hp; omega
    | some p =>
      rw [hostAccess_served hr hp hs] at h
      cases h
      exact .inr ⟨p, rfl, hs, rfl⟩
  · rw [hostAccess_busError hr ha hs] at h
    cases h
    exact .inl ⟨hs, rfl⟩

/-- What a dropped or stored write leaves. -/
theorem unlessBusy_idle {s : State} (h : s.eng = .idle) (stored : State) : unlessBusy s stored = stored := by
  simp [unlessBusy, State.isBusy, h]

theorem unlessBusy_running {s : State} {l : Latch} (h : s.Running l) (stored : State) :
    unlessBusy s stored = s.dropWrite := by
  simp [unlessBusy, State.isBusy, show s.eng = .busy l from h]

theorem State.idle_or_running (s : State) : s.eng = .idle ∨ ∃ l, s.Running l := by
  cases h : s.eng with
  | idle => exact .inl rfl
  | busy l => exact .inr ⟨l, h⟩

/-- The register at an offset, and no other offset holds it. -/
theorem Reg.offset_of_atOffset {a : Nat} {r : Reg} (h : Reg.atOffset a = some r) : a = r.offset := by
  unfold Reg.atOffset at h
  split at h <;> first | (cases h; rfl) | cases h

theorem placeOf_of_serves {a : Nat} (h : a < 0x400000) : ∃ p, placeOf a = some p := by
  rcases placeOf_cases h with h | h | h | h
  · exact ⟨_, h.2⟩
  · exact ⟨_, h.2.2⟩
  · exact ⟨_, h.2.2⟩
  · exact ⟨_, h.2⟩

theorem State.Serves.page {s : State} {a n : Nat} (hs : s.Serves a n) (h : a < 0x100000) : pageAccess a n := by
  rcases hs with h1 | ⟨_, h1, _⟩ | ⟨_, h1, _⟩ | ⟨_, h1, _⟩
  · exact h1
  all_goals omega

theorem State.Serves.src {s : State} {a n : Nat} (hs : s.Serves a n) (h : 0x100000 ≤ a) (h' : a < 0x200000) :
    windowAccess 0x100000 s.srcCap a n := by
  rcases hs with ⟨_, _, _⟩ | h1 | ⟨_, h1, _⟩ | ⟨_, h1, _⟩
  · omega
  · exact h1
  all_goals omega

theorem State.Serves.dst {s : State} {a n : Nat} (hs : s.Serves a n) (h : 0x200000 ≤ a) (h' : a < 0x300000) :
    windowAccess 0x200000 s.dstCap a n := by
  rcases hs with ⟨_, _, _⟩ | ⟨_, h1, h2, _⟩ | h1 | ⟨_, h1, _⟩
  · omega
  · omega
  · exact h1
  · omega

/-- A served read changes nothing but the response and, for DST while Busy, the count of draws. -/
theorem serveRead_eq (s : State) (p : Place) (n : Nat) :
    ∃ v draws, serveRead s p n = { s with resp := some (.data v), draws := draws } := by
  cases p with
  | page a | src i | reserved => exact ⟨_, _, rfl⟩
  | dst i =>
    simp only [serveRead]
    split <;> exact ⟨_, _, rfl⟩

/-- A write of the register page never touches a buffer, a parameter, a draw or the reset input. -/
theorem writeRegister_memories (s : State) (r : Option Reg) (v : Word) :
    (writeRegister s r v).src = s.src ∧ (writeRegister s r v).dst = s.dst ∧
      (writeRegister s r v).srcCapr = s.srcCapr ∧ (writeRegister s r v).dstCapr = s.dstCapr ∧
      (writeRegister s r v).draws = s.draws ∧ (writeRegister s r v).rst = s.rst := by
  rcases r with _ | r
  · exact ⟨rfl, rfl, rfl, rfl, rfl, rfl⟩
  · cases r <;> simp only [writeRegister, unlessBusy]
    case ctrl | cmd | srcLen | factor | width => split <;> exact ⟨rfl, rfl, rfl, rfl, rfl, rfl⟩
    all_goals simp [State.clearStatus]

/-- A write served while Busy changes nothing but WBUSY, DONE and the response (R196). -/
theorem serveWrite_running {s : State} {l : Latch} (h : s.Running l) (p : Place) (n : Nat) (v : Word) :
    ∃ done wbusy, serveWrite s p n v = { s with done := done, wbusy := wbusy, resp := some .written } ∧
      (done = true → s.done = true) := by
  cases p with
  | page a =>
    simp only [serveWrite]
    rcases Reg.atOffset a with _ | r
    · exact ⟨_, _, rfl, id⟩
    · cases r <;> simp only [writeRegister, unlessBusy_running h]
      case status => exact ⟨_, _, rfl, fun hd => (Bool.and_eq_true_iff.mp hd).1⟩
      all_goals exact ⟨_, _, rfl, id⟩
  | src i | dst i =>
    simp only [serveWrite, unlessBusy_running h]
    exact ⟨_, _, rfl, id⟩
  | reserved => exact ⟨_, _, rfl, id⟩

/-- The value of a window read (R56). -/
theorem toNat_windowWord (f : Nat → Byte) {n : Nat} (hn : n = 1 ∨ n = 2 ∨ n = 4) :
    (windowWord ((List.range n).map f)).toNat = ∑ k ∈ Finset.range n, (f k).toNat * 256 ^ k := by
  have hl : ((List.range n).map f).length = n := by simp
  have h := littleEndian_lt ((List.range n).map f)
  rw [windowWord, BitVec.toNat_ofNat, Nat.mod_eq_of_lt, littleEndian_eq_sum, hl]
  · refine Finset.sum_congr rfl fun k hk => ?_
    rw [Finset.mem_range] at hk
    simp [List.getD, hk]
  · rw [hl] at h
    rcases hn with rfl | rfl | rfl <;> omega

/-! ### The step -/

theorem engineTurn_reset {s : State} (h : s.rst = true) : engineTurn s = .next s := by simp [engineTurn, h]

theorem engineTurn_idle {s : State} (h : s.eng = .idle) : engineTurn s = .next s := by
  simp [engineTurn, State.commandInFlight, h]

/-- The result a latched word gives: its command's, or IllegalCommand (R156). -/
def resultOf (srcCap dstCap : Nat) (l : Latch) (src : List Byte) : Result :=
  match decode l.cmd with
  | .command i => commandOf i srcCap dstCap l src
  | .rejected _ => .err .illegalCommand

theorem engineTurn_running {s : State} {l : Latch} (hr : s.rst = false) (h : s.Running l) :
    engineTurn s = .next (s.complete (resultOf s.srcCap s.dstCap l (s.source l))) := by
  have he : s.eng = .busy l := h
  simp only [engineTurn, hr, Bool.false_eq_true, if_false, State.commandInFlight, he, resultOf]
  cases decode l.cmd with
  | command i => exact exec_running h i
  | rejected why => exact completeCommand_running h illegalCommand

theorem length_of_resultOf_ok {srcCap dstCap : Nat} {l : Latch} {src out : List Byte}
    (h : resultOf srcCap dstCap l src = .ok out) : out.length ≤ dstCap := by
  unfold resultOf at h
  split at h
  · exact length_of_command_ok h
  · cases h

/-- With the engine next, the step is the engine's turn on the state without the turn. -/
theorem step_engineNext {s : State} {rest : List Turn} (h : s.EngineNext rest) :
    step s = engineTurn (s.withTurns rest) := by
  obtain ⟨-, h | ⟨h, rfl⟩⟩ := h
  · simp [step, h]
  · have : s.withTurns [] = s := by cases s; simp_all [State.withTurns]
    rw [this]
    simp [step, h]

theorem step_read {s : State} {a n : Nat} {rest : List Turn} (h : s.turns = .read a n :: rest) :
    step s = hostRead a n (s.withTurns rest) := by simp [step, h]

theorem step_write {s : State} {a n : Nat} {v : Word} {rest : List Turn} (h : s.turns = .write a n v :: rest) :
    step s = hostWrite a n v (s.withTurns rest) := by simp [step, h]

theorem step_reset {s : State} {level : Bool} {rest : List Turn} (h : s.turns = .reset level :: rest) :
    step s = .next ((s.withTurns rest).driveReset level) := by simp [step, h]

/-- The engine's turn always answers a next state. -/
theorem engineTurn_next (s : State) : ∃ t, engineTurn s = .next t := by
  cases hr : s.rst with
  | true => exact ⟨_, engineTurn_reset hr⟩
  | false =>
    rcases s.idle_or_running with hi | ⟨l, hl⟩
    · exact ⟨_, engineTurn_idle hi⟩
    · exact ⟨_, engineTurn_running hr hl⟩

theorem step_read_served {s : State} {a n : Nat} {p : Place} {rest : List Turn} (hr : s.rst = false)
    (ht : s.turns = .read a n :: rest) (hp : placeOf a = some p) (hs : s.Serves a n) :
    step s = .next (serveRead (s.withTurns rest) p n) := by
  rw [step_read ht]
  exact hostAccess_served (s := s.withTurns rest) hr hp hs _

theorem step_write_served {s : State} {a n : Nat} {v : Word} {p : Place} {rest : List Turn} (hr : s.rst = false)
    (ht : s.turns = .write a n v :: rest) (hp : placeOf a = some p) (hs : s.Serves a n) :
    step s = .next (serveWrite (s.withTurns rest) p n v) := by
  rw [step_write ht]
  exact hostAccess_served (s := s.withTurns rest) hr hp hs _

/-- Every field of the block at its reset value (R37). -/
theorem State.applyReset_atResetValues (s : State) (level : Bool) : (s.applyReset level).AtResetValues := by
  refine ⟨rfl, ?_, rfl, ?_, rfl, rfl, rfl, rfl, rfl⟩ <;> rfl

theorem State.driveReset_cases (s : State) (level : Bool) :
    s.driveReset level = s ∨ s.driveReset level = s.applyReset level := by
  unfold State.driveReset
  split <;> simp

/-- A run of `k + 1` steps is a step and a run of `k`. -/
theorem run_succ (M : Host.Core) (k : Nat) (s t : M.State) (h : M.step s = .next t) : M.run (k + 1) s = M.run k t := by
  simp only [Host.Core.run, h]

@[simp] theorem State.withTurns_running {s : State} {ts : List Turn} {l : Latch} :
    (s.withTurns ts).Running l ↔ s.Running l := Iff.rfl

@[simp] theorem State.withTurns_source (s : State) (ts : List Turn) (l : Latch) :
    (s.withTurns ts).source l = s.source l := rfl

@[simp] theorem State.withTurns_serves {s : State} {ts : List Turn} {a n : Nat} :
    (s.withTurns ts).Serves a n ↔ s.Serves a n := Iff.rfl

/-- All that a step answering a next state can be. -/
theorem step_cases {s t : State} (h : step s = .next t) :
    -- the engine does not move: held in reset, or Idle
    (∃ rest, t = s.withTurns rest ∧ (s.turns = .engine :: rest ∨ (s.turns = [] ∧ rest = [])) ∧
      (s.rst = true ∨ s.eng = .idle)) ∨
    -- a command completes
    (∃ rest l, s.EngineNext rest ∧ s.Running l ∧
      t = (s.withTurns rest).complete (resultOf s.srcCap s.dstCap l (s.source l))) ∨
    -- the reset input takes a level
    (∃ level rest, s.turns = .reset level :: rest ∧ t = (s.withTurns rest).driveReset level) ∨
    -- a read
    (∃ a n rest, s.turns = .read a n :: rest ∧ s.rst = false ∧ a < 0x400000 ∧
      ((¬ s.Serves a n ∧ t = (s.withTurns rest).respond .busError) ∨
        ∃ p, placeOf a = some p ∧ s.Serves a n ∧ t = serveRead (s.withTurns rest) p n)) ∨
    -- a write
    (∃ a n v rest, s.turns = .write a n v :: rest ∧ s.rst = false ∧ a < 0x400000 ∧
      ((¬ s.Serves a n ∧ t = (s.withTurns rest).respond .busError) ∨
        ∃ p, placeOf a = some p ∧ s.Serves a n ∧ t = serveWrite (s.withTurns rest) p n v)) := by
  have engine : ∀ rest, (s.turns = .engine :: rest ∨ (s.turns = [] ∧ rest = [])) →
      engineTurn (s.withTurns rest) = .next t →
      (∃ rest, t = s.withTurns rest ∧ (s.turns = .engine :: rest ∨ (s.turns = [] ∧ rest = [])) ∧
        (s.rst = true ∨ s.eng = .idle)) ∨
      (∃ rest l, s.EngineNext rest ∧ s.Running l ∧
        t = (s.withTurns rest).complete (resultOf s.srcCap s.dstCap l (s.source l))) := by
    intro rest hturns h
    cases hr : s.rst with
    | true =>
      rw [engineTurn_reset (by simpa using hr)] at h
      cases h
      exact .inl ⟨rest, rfl, hturns, .inl rfl⟩
    | false =>
      cases he : s.eng with
      | idle =>
        rw [engineTurn_idle (by simpa using he)] at h
        cases h
        exact .inl ⟨rest, rfl, hturns, .inr rfl⟩
      | busy l =>
        rw [engineTurn_running (s := s.withTurns rest) (l := l) (by simpa using hr) he] at h
        cases h
        exact .inr ⟨rest, l, ⟨hr, hturns⟩, he, rfl⟩
  match hturns : s.turns with
  | [] =>
    have hw : s.withTurns [] = s := by cases s; simp_all [State.withTurns]
    simp only [step, hturns] at h
    rcases engine [] (.inr ⟨hturns, rfl⟩) (by rw [hw]; exact h) with h | h
    · rw [hturns] at h; exact .inl h
    · exact .inr (.inl h)
  | .engine :: rest =>
    simp only [step, hturns] at h
    rcases engine rest (.inl hturns) h with h | h
    · rw [hturns] at h; exact .inl h
    · exact .inr (.inl h)
  | .reset level :: rest =>
    rw [step_reset hturns] at h
    cases h
    exact .inr (.inr (.inl ⟨level, rest, rfl, rfl⟩))
  | .read a n :: rest =>
    rw [step_read hturns] at h
    obtain ⟨hr, ha, hs⟩ := hostAccess_next h
    exact .inr (.inr (.inr (.inl ⟨a, n, rest, rfl, hr, ha, hs⟩)))
  | .write a n v :: rest =>
    rw [step_write hturns] at h
    obtain ⟨hr, ha, hs⟩ := hostAccess_next h
    exact .inr (.inr (.inr (.inr ⟨a, n, v, rest, rfl, hr, ha, hs⟩)))

end Sys2Proof.Machine
end

