-- ==== Sys2Proof/Tests/Slice0.lean ====
section
/-! SUPPORT. The model's own tests. Expected results are those of spec/95_test_vectors.md (the vector's id is named) or
are worked out from the rule named. The second part shows, for each statement with hypotheses, values that meet all of
them. -/

namespace Sys2Proof.Tests.Slice0

open Sys2Proof.Machine

/-! ### Well-formedness and words (R70 to R76) -/

theorem test_wf_unpack : (Instr.unpack 255).wf = true ∧ (Instr.unpack 256).wf = false := by decide
theorem test_wf_pack : (Instr.pack 255).wf = true ∧ (Instr.pack 256).wf = false := by decide
theorem test_wf_upscale : (Instr.upscale 255).wf = true ∧ (Instr.upscale 256).wf = false := by decide
theorem test_wf_downscale24 : (Instr.downscale24 255).wf = true ∧ (Instr.downscale24 256).wf = false := by decide
theorem test_wf_resize : (Instr.resize 255 true).wf = true ∧ (Instr.resize 256 false).wf = false := by decide
theorem test_wf_flip : (Instr.flip 255).wf = true ∧ (Instr.flip 256).wf = false := by decide

-- RSV1 (15 bits), SHRINK, DEPTH, RSV0, OP, bit by bit from the table of R70 and the opcodes of R71
theorem test_word_unpack : decode 0b000000000000000_0_00000100_0000_0001#32 = .command (.unpack 4) := by decide
theorem test_word_pack : decode 0b000000000000000_0_00000001_0000_0010#32 = .command (.pack 1) := by decide
theorem test_word_upscale : decode 0b000000000000000_0_00011000_0000_0011#32 = .command (.upscale 24) := by decide
theorem test_word_downscale24 : decode 0b000000000000000_0_00011000_0000_0100#32 = .command (.downscale24 24) := by decide
theorem test_word_resize : decode 0b000000000000000_1_00011000_0000_0101#32 = .command (.resize 24 true) := by decide
theorem test_word_flip : decode 0b000000000000000_0_10000001_0000_0110#32 = .command (.flip 129) := by decide

/-- X1, X2, X4, X5, X6: each word of the reserved space is rejected, by name. -/
theorem test_words_rejected :
    decode 0x00000000#32 = .rejected .reservedOpcode ∧ decode 0x00000F07#32 = .rejected .reservedOpcode ∧
      decode 0x00010803#32 = .rejected .shrinkOutsideResize ∧ decode 0x00000011#32 = .rejected .reservedLowBits ∧
      decode 0x80000801#32 = .rejected .reservedHighBits := by decide

theorem test_table_word : decodeTableWord 32 0x00011805 = some (.resize 24 true) ∧ decodeTableWord 32 0x0000000F = none ∧
    decodeTableWord 8 0x1806 = some (.flip 0) := by decide

/-! ### One command each -/

/-- An Idle block with 64-byte buffers, the given CTRL word, FACTOR, WIDTH and bytes at SRC[0]. -/
def loaded (ctrl factor width : Nat) (bytes : List Nat) : State :=
  { State.reset with
    srcCapr := 64#32
    dstCapr := 64#32
    ctrl := Ctrl.reset.write (BitVec.ofNat 32 ctrl)
    srcLen := BitVec.ofNat 32 bytes.length
    factor := BitVec.ofNat 32 factor
    width := BitVec.ofNat 32 width
    src := State.reset.src.store 0 (bytes.map (BitVec.ofNat 8)) }

/-- STATUS and DST[0..DST_LEN) after the one step that runs the word. -/
def ran (w ctrl factor width : Nat) (bytes : List Nat) : Option (Nat × List Nat) :=
  match step ((loaded ctrl factor width bytes).withFetchWord 32 w) with
  | .next t => some (t.statusWord.toNat, (t.dst.load 0 t.dstLen.toNat).map BitVec.toNat)
  | .fault _ => none
  | .refused _ => none

/-- The raster R2 of the vectors. -/
def rasterR2 : List Nat := [10, 20, 30, 11, 20, 31, 12, 21, 32, 14, 21, 33]

/-- U1 -/
theorem test_unpack_bits_msb_first : ran 0x00000101 1 1 1 [0xA5] = some (2, [1, 0, 1, 0, 0, 1, 0, 1]) := by decide
/-- L1-1, with 0xF0 after it -/
theorem test_unpack_nibbles_high_first : ran 0x00000401 1 1 1 [0xB4, 0xF0] = some (2, [0xB, 4, 0xF, 0]) := by decide
/-- K-T2 -/
theorem test_pack_zero_pad : ran 0x00000102 5 1 1 [1, 0, 1, 1, 0, 0, 1, 0, 1, 1] = some (2, [0xB2, 0xC0]) := by decide
/-- K-T9 -/
theorem test_pack_range_check_covers_dropped : ran 0x00000402 9 1 1 [1, 2, 0x10] = some (0x32, []) := by decide
/-- S3 -/
theorem test_upscale_nibbles : ran 0x00000403 1 3 1 [0x12] = some (2, [0x11, 0x12, 0x22]) := by decide
/-- S8: the product is exact -/
theorem test_upscale_does_not_wrap : ran 0x00000803 1 0xFFFFFFFF 1 [5, 9] = some (0x62, []) := by decide
/-- D3 -/
theorem test_downscale24_half_even : ran 0x00001804 2 2 2 rasterR2 = some (2, [12, 20, 32]) := by decide
/-- D8: a raster wider than one block -/
theorem test_downscale24_row_major :
    ran 0x00001804 1 2 4 [0, 1, 255, 1, 11, 254, 2, 21, 253, 3, 31, 252, 4, 41, 251, 5, 51, 250, 6, 61, 249, 7, 71, 248] =
      some (2, [3, 26, 253, 5, 46, 251]) := by decide
/-- Z4 -/
theorem test_resize_shrinks : ran 0x00011805 1 2 2 rasterR2 = some (2, [12, 21, 32]) := by decide
/-- L1-7 -/
theorem test_resize_unsupported_depth : ran 0x00000705 1 2 1 [1] = some (0x12, []) := by decide
/-- F3 -/
theorem test_flip_bits : ran 0x00000106 1 1 1 [0x01, 0x80, 0xA5] = some (2, [0xA5, 0x01, 0x80]) := by decide
/-- F8 -/
theorem test_flip_triples : ran 0x00001806 1 0 0 [1, 2, 3, 4, 5, 6, 7, 8, 9] = some (2, [7, 8, 9, 4, 5, 6, 1, 2, 3]) := by
  decide

/-! ### The error order (R179) -/

/-- X3, D21, S11: an earlier cause hides a later one. -/
theorem test_error_order :
    ran 0x00000F07 1 0 1 [1] = some (0x42, []) ∧ ran 0x00000804 1 0 2 rasterR2 = some (0x22, []) ∧
      ran 0x00001803 1 0xFFFFFFFF 1 [1, 2, 3, 4] = some (0x32, []) := by decide

/-! ### One host access each -/

/-- The response to one access and STATUS after it. -/
def accessed (s : State) (turn : Turn) : Option (Option Response × Nat) :=
  match step { s with turns := [turn] } with
  | .next t => some (t.resp, t.statusWord.toNat)
  | .fault _ => none
  | .refused _ => none

/-- An Idle block with SRC[0..4) = [1, 2, 3, 4]. -/
def idleState : State := loaded 1 1 1 [1, 2, 3, 4]

/-- The same block with UNPACK at depth 8 in flight. -/
def busyState : State := idleState.accept 0x00000801#32

/-- H3 -/
theorem test_ctrl_write_any_read_legal : ((Ctrl.reset.write 7#32).word, (Ctrl.reset.write 0xFFFFFFF8#32).word) = (5#32, 8#32) := by
  decide
/-- H7 -/
theorem test_window_read : accessed idleState (.read 0x100002 2) = some (some (.data 0x0403#32), 0) := by decide
/-- H8, H9, H10 -/
theorem test_bus_errors :
    [Turn.read 0 1, .write 0x100001 4 0#32, .read 0x10003F 2].map (accessed idleState) =
      List.replicate 3 (some (some .busError, 0)) := by decide
/-- H11 -/
theorem test_reserved_reads_zero :
    [Turn.read 0x100 4, .read 0x300000 4].map (accessed idleState) = List.replicate 2 (some (some (.data 0#32), 0)) := by
  decide
/-- H12, H13: a dropped write sets WBUSY, a STATUS write clears it while Busy -/
theorem test_wbusy :
    accessed busyState (.write 0x14 4 7#32) = some (some .written, 0x101) ∧
      accessed { busyState with wbusy := true } (.write 0x0C 4 0x100#32) = some (some .written, 1) := by decide
/-- H14, H15 -/
theorem test_status_write_1_to_clear :
    accessed { idleState with done := true, err := some .badFactor, wbusy := true } (.write 0x0C 4 0x102#32) =
      some (some .written, 0x50) ∧
    accessed { idleState with done := true, err := some .malformedBuffer } (.write 0x0C 4 0xF0#32) =
      some (some .written, 0x32) := by decide
/-- H16 -/
theorem test_acceptance_clears_status :
    accessed { idleState with done := true, err := some .malformedBuffer } (.write 0x08 4 0x801#32) =
      some (some .written, 1) := by decide
/-- R190, R191: reset abandons the command in flight -/
theorem test_reset_abandons : accessed busyState (.reset true) = some (none, 0) := by decide
/-- log 7 and log 8: the two accesses the step stops on -/
theorem test_stops :
    step { idleState with turns := [.read 0x400000 4] } = .fault .outsideRegion ∧
      step { idleState with rst := true, turns := [.read 0 4] } = .refused .accessDuringReset := by
  exact ⟨rfl, rfl⟩
/-- log 12 -/
theorem test_idle_engine_has_no_completion : exec (.flip 8) idleState = .fault .engineIdle := rfl

/-! ### Each statement's hypotheses are met -/

/-- The latch of the command in flight in `busyState`. -/
def busyLatch : Latch := idleState.capture 0x00000801#32

theorem busyState_running : busyState.Running busyLatch := rfl

/-- A command in flight with the word, on a loaded block. -/
def inFlight (w ctrl factor width : Nat) (bytes : List Nat) : State := (loaded ctrl factor width bytes).accept (BitVec.ofNat 32 w)

theorem test_meets_DecodeOfEncodeIsTheCommand : (Instr.resize 255 true).wf = true ∧ (Instr.unpack 0).wf = true := by decide

theorem test_meets_EncodeOfDecodedIsTheWord : decode 0x0001FF05#32 = .command (.resize 255 true) := by decide

theorem test_meets_EncodingFollowsTheFieldLayout : (Instr.resize 255 true).wf = true ∧ (Instr.flip 255).wf = true := by decide

theorem test_meets_StepRunsTheDecodedCommand :
    (busyState.EngineNext [] ∧ busyState.Running busyLatch ∧ decode busyLatch.cmd = .command (.unpack 8)) ∧
      ({ busyState with turns := [.engine, .reset true] } : State).EngineNext [.reset true] :=
  ⟨⟨⟨rfl, .inr ⟨rfl, rfl⟩⟩, rfl, by decide⟩, ⟨rfl, .inl rfl⟩⟩

theorem test_meets_IllegalWordCompletesWithIllegalCommand :
    ∀ w ∈ [0x00000000, 0x00000F07, 0x00010803, 0x00000011, 0x80000801], ∃ l, (inFlight w 1 1 1 []).EngineNext [] ∧
      (inFlight w 1 1 1 []).Running l ∧ ¬ legalWord l.cmd := by
  intro w hw
  refine ⟨(loaded 1 1 1 []).capture (BitVec.ofNat 32 w), ⟨rfl, .inr ⟨rfl, rfl⟩⟩, rfl, ?_⟩
  simp only [List.mem_cons, List.not_mem_nil, or_false] at hw
  rcases hw with rfl | rfl | rfl | rfl | rfl <;> decide

theorem test_meets_CmdWriteIsAcceptedWhileIdle :
    let s : State := { idleState with turns := [.write 0x08 4 0x801#32] }
    let b : State := { busyState with turns := [.write 0x08 4 0x801#32] }
    (s.rst = false ∧ s.turns = [.write 0x08 4 0x801#32] ∧ s.eng = .idle) ∧
      b.rst = false ∧ b.turns = [.write 0x08 4 0x801#32] ∧ b.Running busyLatch :=
  ⟨⟨rfl, rfl, rfl⟩, rfl, rfl, rfl⟩

theorem test_meets_RunningCommandSeesNoLaterWrite :
    let s : State := { busyState with turns := [.write 0x100000 4 7#32] }
    ∃ t, s.Running busyLatch ∧ s.AccessNext 0x100000 [] ∧ step s = .next t :=
  ⟨_, rfl, ⟨4, .inr ⟨7#32, rfl⟩⟩, rfl⟩

/-- Acceptance, completion and reset each move the engine. -/
theorem test_meets_EngineMovesOnlyByAcceptanceCompletionReset :
    let s : State := { idleState with turns := [.write 0x08 4 0x801#32] }
    (s.eng = .idle ∧ ∃ t, step s = .next t ∧ t.eng ≠ .idle) ∧
      (busyState.Running busyLatch ∧ ∃ t, step busyState = .next t ∧ t.eng ≠ .busy busyLatch) ∧
      ∃ t, step { busyState with turns := [.reset true] } = .next t ∧ t.eng ≠ .busy busyLatch := by
  refine ⟨⟨rfl, _, rfl, by decide⟩, ⟨rfl, _, step_engineNext ⟨rfl, .inr ⟨rfl, rfl⟩⟩ |>.trans (engineTurn_running rfl rfl), ?_⟩,
    _, rfl, by decide⟩
  decide

theorem test_meets_BusyEngineCompletesWhateverTheHostDoes :
    let s : State := { busyState with turns := [.read 0x3FFFFF 1, .write 0x14 4 7#32, .engine] }
    s.rst = false ∧ s.Running busyLatch ∧
      ∀ turn ∈ s.turns, (∃ a n, turn = .read a n ∧ a < 0x400000) ∨ (∃ a n v, turn = .write a n v ∧ a < 0x400000) ∨
        turn = .engine := by
  refine ⟨rfl, rfl, ?_⟩
  intro turn h
  simp only [List.mem_cons, List.not_mem_nil, or_false] at h
  rcases h with rfl | rfl | rfl
  · exact .inl ⟨_, _, rfl, by decide⟩
  · exact .inr (.inl ⟨_, _, _, rfl, by decide⟩)
  · exact .inr (.inr rfl)

/-- The engine's turn listed, and no turn left. -/
theorem test_meets_CompletionIsStuckWhileIdle :
    idleState.eng = .idle ∧ idleState.EngineNext [] ∧
      ({ idleState with turns := [.engine, .read 0 4] } : State).EngineNext [.read 0 4] :=
  ⟨rfl, ⟨rfl, .inr ⟨rfl, rfl⟩⟩, rfl, .inl rfl⟩

/-- At every depth; at depth 1 the result fills DST. -/
theorem test_meets_UnpackDeliversTheSamples :
    (∀ d : Depth, ∃ l, (inFlight 0 1 1 1 [1, 2, 3, 4, 5, 6]).Ready l d.bits d ∧ (d = .d24 → l.srclen.toNat % 3 = 0) ∧
      unpackedLength d l.srclen.toNat ≤ 64) ∧
    unpackedLength .d1 8 = (inFlight 0 1 1 1 [1, 2, 3, 4, 5, 6, 7, 8]).dstCap := by
  refine ⟨fun d => ⟨_, ⟨rfl, Depth.ofRaw_bits d, by decide⟩, fun _ => by decide, ?_⟩, by decide⟩
  cases d <;> decide

/-- At every depth, under every policy for whole groups; and with a partial group, padded and dropped. -/
theorem test_meets_PackDeliversTheSamples :
    (∀ (d : Depth) (c : Nat), c ∈ [1, 5, 9] →
      let s := inFlight 0 c 1 1 [1, 0, 1, 1, 0, 0, 1, 0, 1, 0, 1, 1, 0, 0, 1, 0, 0, 0, 0, 0, 0, 0, 0, 0]
      ∃ l, s.Ready l d.bits d ∧ packable d l.ctrl.ptail l.srclen.toNat s.src.read ∧
        packedLength d l.ctrl.ptail l.srclen.toNat ≤ s.dstCap) ∧
    ∀ c, c ∈ [5, 9] →
      let s := inFlight 0 c 1 1 [1, 0, 1, 1, 0, 0, 1, 0, 1, 1]
      ∃ l, s.Ready l 1 .d1 ∧ packable .d1 l.ctrl.ptail l.srclen.toNat s.src.read ∧
        packedLength .d1 l.ctrl.ptail l.srclen.toNat ≤ s.dstCap := by
  constructor
  · intro d c hc
    simp only [List.mem_cons, List.not_mem_nil, or_false] at hc
    rcases hc with rfl | rfl | rfl <;>
      refine ⟨_, ⟨rfl, Depth.ofRaw_bits d, by decide⟩, ?_⟩ <;> cases d <;> decide
  · intro c hc
    simp only [List.mem_cons, List.not_mem_nil, or_false] at hc
    rcases hc with rfl | rfl <;> refine ⟨_, ⟨rfl, rfl, by decide⟩, ?_⟩ <;> decide

/-- At every depth, and by both commands; FACTOR 10 with 6 bytes leaves 4 of the 64 bytes of DST. -/
theorem test_meets_UpscaleDeliversEachSampleRepeated :
    ∀ d : Depth, let s := inFlight 0 1 10 1 [1, 2, 3, 4, 5, 6]
      ∃ l, s.Ready l d.bits d ∧ 1 ≤ l.factor.toNat ∧ (d = .d24 → l.srclen.toNat % 3 = 0) ∧
        l.factor.toNat * l.srclen.toNat ≤ s.dstCap :=
  fun d => ⟨_, ⟨rfl, Depth.ofRaw_bits d, by decide⟩, by decide, fun _ => by decide, by decide⟩

theorem test_meets_DownscaleDeliversTheBlockMeans :
    let s := inFlight 0 1 2 2 rasterR2
    ∃ l, s.Ready l 24 .d24 ∧ 1 ≤ l.factor.toNat ∧ geometry l.srclen.toNat l.width.toNat l.factor.toNat ∧
      l.srclen.toNat / (l.factor.toNat * l.factor.toNat) ≤ s.dstCap ∧
      0 < l.width.toNat / l.factor.toNat ∧ 0 < l.srclen.toNat / 3 / l.width.toNat / l.factor.toNat :=
  ⟨_, ⟨rfl, rfl, by decide⟩, by decide, by decide, by decide, by decide, by decide⟩

theorem test_meets_FlipDeliversTheSamplesReversed :
    ∀ d : Depth, let s := inFlight 0 1 1 1 [1, 2, 3, 4, 5, 6]
      ∃ l, s.Ready l d.bits d ∧ (d = .d24 → l.srclen.toNat % 3 = 0) ∧ l.srclen.toNat ≤ s.dstCap :=
  fun d => ⟨_, ⟨rfl, Depth.ofRaw_bits d, by decide⟩, fun _ => by decide, by decide⟩

theorem test_meets_CompletionReportsTheFirstErrorThatApplies :
    busyState.EngineNext [] ∧ busyState.Running busyLatch := ⟨⟨rfl, .inr ⟨rfl, rfl⟩⟩, rfl⟩

theorem test_meets_AnErrorRecordsOnlyItsCode :
    ∃ t, busyState.Running busyLatch ∧ exec (.flip 7) busyState = .next t ∧ t.err = some .unsupportedBitDepth :=
  ⟨_, rfl, exec_running busyState_running _, by decide⟩

/-- Shared by UnsupportedDepthFailsEveryCommand, UnsupportedOperationInExactlyTwoCases and
BadFactorExactlyForAZeroFactor, each of which needs a command in flight; their errors do occur. -/
theorem test_meets_error_statements :
    busyState.Running busyLatch ∧ ran 0x00000703 1 0 1 [5] = some (0x12, []) ∧
      ran 0x00010805 1 2 2 [1, 2, 3] = some (0x22, []) ∧ ran 0x00000805 1 0 1 [5] = some (0x52, []) :=
  ⟨rfl, by decide, by decide, by decide⟩

theorem test_meets_RetryGivesTheSameError :
    ∃ t, busyState.Running busyLatch ∧ busyState.LatchAgrees ∧ exec (.flip 7) busyState = .next t ∧
      t.err = some .unsupportedBitDepth := by
  refine ⟨_, rfl, ?_, exec_running busyState_running _, by decide⟩
  intro l h
  cases h
  exact ⟨rfl, rfl, rfl, rfl⟩

theorem test_meets_CommandsChangeOnlyStatusAndDst :
    ∃ t, busyState.Running busyLatch ∧ exec (.unpack 8) busyState = .next t ∧ t.err = none :=
  ⟨_, rfl, exec_running busyState_running _, by decide⟩

/-- Two states that differ in DST, WBUSY and the bytes of SRC past the source. -/
theorem test_meets_OutcomeDependsOnlyOnLatchAndSource :
    let s' : State := { busyState with dst := busyState.dst.write 0 9#8, wbusy := true, src := busyState.src.write 4 9#8 }
    busyState.Running busyLatch ∧ s'.Running busyLatch ∧ busyState.srcCapr = s'.srcCapr ∧ busyState.dstCapr = s'.dstCapr ∧
      ∀ k < busyLatch.srclen.toNat, busyState.src.read k = s'.src.read k :=
  ⟨rfl, rfl, rfl, rfl, by decide⟩

/-- With every ignored operand different from the latch's. -/
theorem test_meets_CommandsIgnoreOperandsTheyDoNotRead :
    busyState.Running busyLatch ∧ busyLatch.factor ≠ 0#32 ∧ busyLatch.width ≠ 7#32 ∧ busyLatch.ctrl.rnd ≠ .truncate ∧
      busyLatch.ctrl.ptail ≠ .drop := ⟨rfl, by decide, by decide, by decide, by decide⟩

/-- A STATUS write after a completion; and a write of the last DST byte, the one access that changes DST. -/
theorem test_meets_ResultStaysUntilTheNextCommand :
    let s : State := { idleState with done := true, turns := [.write 0x0C 4 2#32] }
    s.eng = .idle ∧ (∃ t, step s = .next t ∧ t.eng = .idle) ∧ (¬ ∃ level rest, s.turns = .reset level :: rest) ∧
      (¬ ∃ a n v rest, s.turns = .write a n v :: rest ∧ windowAccess 0x200000 s.dstCap a n) := by
  refine ⟨rfl, ⟨_, rfl, rfl⟩, ?_, ?_⟩
  · rintro ⟨_, _, h⟩
    cases h
  · rintro ⟨_, _, _, _, h, hw⟩
    cases h
    exact absurd hw (by decide)

/-- A write to SRC, a completion and a write to DST each change a buffer. -/
theorem test_meets_BuffersChangeOnlyByHostCompletionReset :
    (∃ t, step { idleState with turns := [.write 0x100004 1 9#32] } = .next t ∧ t.src ≠ idleState.src) ∧
      (∃ t, step { idleState with turns := [.write 0x20003F 1 9#32] } = .next t ∧ t.dst ≠ idleState.dst) ∧
      ∃ t, step busyState = .next t ∧ t.dst ≠ busyState.dst := by
  refine ⟨⟨_, step_write_served rfl rfl (p := .src 4) (by decide) (.inr (.inl (by decide))), by decide⟩,
    ⟨_, step_write_served rfl rfl (p := .dst 63) (by decide) (.inr (.inr (.inl (by decide)))), by decide⟩,
    ⟨_, step_engineNext ⟨rfl, .inr ⟨rfl, rfl⟩⟩ |>.trans (engineTurn_running rfl rfl), by decide⟩⟩

/-- WBUSY is set by a dropped write and cleared by a STATUS write. -/
theorem test_meets_WbusyIsSticky :
    (∃ t, step { busyState with turns := [.write 0x18 4 9#32] } = .next t ∧ t.wbusy = true) ∧
      ∃ t, step { busyState with wbusy := true, turns := [.write 0x0C 4 0x100#32] } = .next t ∧ t.wbusy = false := by
  exact ⟨⟨_, rfl, by decide⟩, ⟨_, rfl, by decide⟩⟩

/-- Narrow, misaligned and out-of-window accesses that get BusError, each at a boundary. -/
theorem test_meets_IllegalAccessGetsBusError :
    idleState.rst = false ∧ ¬ idleState.Serves 0x0FFFFF 1 ∧ ¬ idleState.Serves 0x100002 4 ∧ ¬ idleState.Serves 0x100040 1 ∧
      ¬ idleState.Serves 0x200040 1 ∧ ¬ idleState.Serves 0x3FFFFE 4 ∧ ¬ idleState.Serves 0 3 := by
  refine ⟨rfl, ?_, ?_, ?_, ?_, ?_, ?_⟩ <;> unfold State.Serves <;> decide

/-- Each clause of the statement at a boundary of its range: the last bytes of the windows, the registers, the last
offsets of the page and of the reserved range. -/
theorem test_meets_WritesWhileBusyAreDropped :
    (busyState.rst = false ∧ busyState.Running busyLatch) ∧
      (busyState.Drops 0x04 4 ∧ busyState.Drops 0x18 4 ∧ busyState.Drops 0x100000 1 ∧ busyState.Drops 0x10003C 4 ∧
        busyState.Drops 0x20003F 1) ∧
      (busyState.Serves 0x00 4 ∧ ¬ busyState.Drops 0x00 4) ∧ (busyState.Serves 0x1C 4 ∧ ¬ busyState.Drops 0x1C 4) ∧
      (busyState.Serves 0x0FFFFC 4 ∧ ¬ busyState.Drops 0x0FFFFC 4) ∧
      (busyState.Serves 0x3FFFFF 1 ∧ ¬ busyState.Drops 0x3FFFFF 1) ∧
      ¬ busyState.Serves 0x200040 1 ∧ ¬ busyState.Serves 0x08 2 ∧
      (busyState.Serves 0x0C 4 ∧ ¬ busyState.Drops 0x0C 4) := by
  refine ⟨⟨rfl, rfl⟩, ⟨?_, ?_, ?_, ?_, ?_⟩, ⟨?_, ?_⟩, ⟨?_, ?_⟩, ⟨?_, ?_⟩, ⟨?_, ?_⟩, ?_, ?_, ?_, ?_⟩ <;>
    simp only [State.Serves, State.Drops] <;> decide

theorem test_meets_ReadsWhileBusy :
    busyState.rst = false ∧ busyState.Running busyLatch ∧ busyState.LatchAgrees ∧
      windowAccess 0x100000 busyState.srcCap 0x10003C 4 ∧ windowAccess 0x200000 busyState.dstCap 0x20003F 1 := by
  refine ⟨rfl, rfl, ?_, by decide, by decide⟩
  intro l h
  cases h
  exact ⟨rfl, rfl, rfl, rfl⟩

theorem test_meets_ReadsHaveNoSideEffect :
    ∃ t, step { busyState with turns := [.read 0x200000 4] } = .next t :=
  ⟨_, step_read_served rfl rfl (p := .dst 0) (by decide) (.inr (.inr (.inl (by decide))))⟩

/-- The page's ends, and the reserved range's first and last access of every width. -/
theorem test_meets_RegisterReadsReturnTheRegisters :
    idleState.rst = false ∧ pageAccess 0x24 4 ∧ pageAccess 0x0FFFFC 4 ∧
      ∀ n ∈ [1, 2, 4], reservedAccess 0x300000 n ∧ reservedAccess (0x400000 - n) n :=
  ⟨rfl, by decide, by decide, by decide⟩

theorem test_meets_CtrlWriteKeepsAFieldWrittenReserved :
    idleState.rst = false ∧ idleState.eng = .idle ∧ busyState.rst = false ∧ busyState.Running busyLatch ∧
      (0x7#32).extractLsb' 0 2 = 3#2 ∧ (0x7#32).extractLsb' 2 2 ≠ 3#2 := ⟨rfl, rfl, rfl, rfl, by decide, by decide⟩

theorem test_meets_StatusWriteClearsOnlyDoneAndWbusy :
    let s : State := { busyState with turns := [.write 0x0C 4 0xFFFFFFFF#32] }
    s.rst = false ∧ s.turns = [.write 0x0C 4 0xFFFFFFFF#32] := ⟨rfl, rfl⟩

theorem test_meets_IdleRegisterWritesStoreOrAreIgnored :
    idleState.rst = false ∧ idleState.eng = .idle ∧
      (∀ a ∈ [0x00, 0x10, 0x14, 0x18, 0x1C, 0x24, 0x28, 0x0FFFFC],
        pageAccess a 4 ∧ a ≠ 0x04 ∧ a ≠ 0x08 ∧ a ≠ 0x0C) ∧
      ∀ n ∈ [1, 2, 4], reservedAccess 0x300000 n ∧ reservedAccess (0x400000 - n) n :=
  ⟨rfl, rfl, by decide, by decide⟩

/-- Both windows, at their first and last bytes, with every width. -/
theorem test_meets_WindowAccessesAreLittleEndian :
    idleState.rst = false ∧ idleState.eng = .idle ∧ windowAccess 0x100000 idleState.srcCap 0x100000 4 ∧
      windowAccess 0x100000 idleState.srcCap 0x10003F 1 ∧ windowAccess 0x200000 idleState.dstCap 0x20003E 2 ∧
      windowAccess 0x200000 idleState.dstCap 0x20003C 4 := ⟨rfl, rfl, by decide, by decide, by decide, by decide⟩

/-- Assertion while Busy, a second assertion, the release; the engine's turn and an access while asserted. -/
theorem test_meets_ResetAbandonsTheCommand :
    let held : State := { busyState.applyReset true with turns := [.reset false] }
    ({ busyState with turns := [.reset true] } : State).turns = [.reset true] ∧ held.rst = true ∧
      held.turns = [.reset false] ∧ ({ held with turns := [.engine] } : State).turns = [.engine] ∧
      ({ held with turns := [.read 0x0C 4] } : State).AccessNext 0x0C [] := ⟨rfl, rfl, rfl, rfl, 4, .inl rfl⟩

/-- A state other than reset: a loaded block with a command in flight and a dropped write next. -/
theorem test_meets_StepKeepsTheInvariant :
    let s : State := { busyState with turns := [.write 0x18 4 9#32] }
    s.Inv ∧ ∃ t, step s = .next t := by
  refine ⟨⟨by decide, by decide, ⟨by decide, by decide, by decide, by decide⟩, fun l h => ?_, fun h => ?_, fun h => ?_,
    ⟨by decide, by decide, by decide⟩⟩, _, rfl⟩
  · cases h
    exact ⟨rfl, rfl, rfl, rfl⟩
  · cases h
  · cases h

theorem test_meets_PackUndoesUnpack : ([1#8, 2#8, 3#8] : List Byte).length % 3 = 0 := by decide

/-- Whole groups, a partial group at depth 1 and at depth 4, whole triples. -/
theorem test_meets_UnpackUndoesPackUpToTheTail :
    (∀ t ∈ List.replicate 8 (1#8 : Byte), t.toNat < 2 ^ Depth.d1.bits) ∧ (List.replicate 8 (1#8 : Byte)).length % groupSize .d1 = 0 ∧
      (List.replicate 7 (1#8 : Byte)).length % groupSize .d1 ≠ 0 ∧
      (∀ t ∈ [15#8, 0#8, 1#8], t.toNat < 2 ^ Depth.d4.bits) ∧ [15#8, 0#8, 1#8].length % groupSize .d4 ≠ 0 ∧
      [15#8, 0#8, 1#8].length % 3 = 0 := by decide

theorem test_meets_UpscaleMultipliesTheSampleCount :
    Depth.ofRaw 4 = some .d4 ∧
      upscaleCommand 4 64 64 ((loaded 1 3 1 [0x12]).capture 0x403#32) [0x12#8] = .ok [0x11#8, 0x12#8, 0x22#8] := by decide

theorem test_meets_RoundingIsByThePolicy : 1 ≤ 4 ∧ 82 ≤ 255 * 4 := by decide

/-- A raster of 2 × 1 pixels grown by 2: program P3's shape. -/
theorem test_meets_ShrinkUndoesTwoDimensionalGrowth :
    let b : List Byte := [1#8, 2#8, 3#8, 4#8, 5#8, 6#8]
    let l := (loaded 1 2 1 [1, 2, 3, 4, 5, 6]).capture 0x1803#32
    let l' := (loaded 1 2 4 (List.replicate 24 0)).capture 0x1804#32
    1 ≤ 2 ∧ b.length = 3 * 2 * 1 ∧ l.factor.toNat = 2 ∧
      upscaleCommand 24 64 64 l b = .ok [1#8, 2#8, 3#8, 1#8, 2#8, 3#8, 4#8, 5#8, 6#8, 4#8, 5#8, 6#8] ∧
      l'.factor.toNat = 2 ∧ l'.width.toNat = 2 * 2 ∧ l'.srclen.toNat ≤ 64 := by decide

theorem test_meets_FlipReversesTheUnpackedSamples : ([1#8, 2#8, 3#8] : List Byte).length % 3 = 0 := by decide

theorem test_meets_FlipIsAnInvolution : ([1#8, 2#8, 3#8] : List Byte).length % 3 = 0 := by decide

end Sys2Proof.Tests.Slice0
end

section
/-! PROOFS. The invariant of the block, at reset and over every step, and the independence of a command's outcome from all
but its latch, the capacities and its source (00_scope.md). -/

/-! ### The capacities at reset (R7) -/

namespace Sys2Proof

theorem Config.srcCap_range : 1 ≤ Config.srcCap ∧ Config.srcCap ≤ 2 ^ 20 := by unfold Config.srcCap; omega

theorem Config.dstCap_range : 1 ≤ Config.dstCap ∧ Config.dstCap ≤ 2 ^ 20 := by unfold Config.dstCap; omega

end Sys2Proof

namespace Sys2Proof.Machine

/-! ### Reset (R7, R37) -/

theorem State.reset_srcCap : State.reset.srcCap = Config.srcCap := by
  have := Config.srcCap_range
  exact Nat.mod_eq_of_lt (by omega)

theorem State.reset_dstCap : State.reset.dstCap = Config.dstCap := by
  have := Config.dstCap_range
  exact Nat.mod_eq_of_lt (by omega)

theorem State.reset_capacitiesOk : State.reset.CapacitiesOk := by
  rw [State.CapacitiesOk, State.reset_srcCap, State.reset_dstCap]
  exact ⟨Config.srcCap_range.1, Config.srcCap_range.2, Config.dstCap_range⟩

theorem State.reset_atResetValues : State.reset.AtResetValues := State.reset.applyReset_atResetValues false

/-! ### Each operation keeps the invariant

The operations that a held reset input excludes take `rst = false` as a premise, so the clause on reset is void after
them. -/

namespace State.Inv

variable {s : State}

theorem withTurns (h : s.Inv) (ts : List Turn) : (s.withTurns ts).Inv :=
  ⟨h.srcWf, h.dstWf, h.capacities, h.latch, h.result, h.inReset, h.draws⟩

theorem respond (h : s.Inv) (r : Response) : (s.respond r).Inv :=
  ⟨h.srcWf, h.dstWf, h.capacities, h.latch, h.result, h.inReset, h.draws⟩

theorem applyReset (h : s.Inv) (level : Bool) : (s.applyReset level).Inv where
  srcWf := Memory.drawn_wf _ _
  dstWf := Memory.drawn_wf _ _
  capacities := h.capacities
  latch := fun l hl => by cases hl
  result := fun _ => ⟨Nat.zero_le _, fun _ => rfl⟩
  inReset := fun _ => s.applyReset_atResetValues level
  draws := by simp [State.DrawsApart, Memory.drawn]

theorem driveReset (h : s.Inv) (level : Bool) : (s.driveReset level).Inv := by
  rcases s.driveReset_cases level with hd | hd <;> rw [hd]
  · exact h
  · exact h.applyReset level

/-- The result of a completion fits DST, so its bytes lie below the capacity and its length in DST_LEN does not wrap. -/
theorem completeOk (h : s.Inv) (hr : s.rst = false) {out : List Byte} (hout : out.length ≤ s.dstCap) :
    (s.completeOk out).Inv where
  srcWf := h.srcWf
  dstWf := Memory.store_wf h.dstWf (by simpa using hout)
  capacities := h.capacities
  latch := fun l hl => by cases hl
  result := fun _ => by
    obtain ⟨-, -, -, hlen, -⟩ := s.completeOk_completedWith hout
    exact ⟨hlen.trans_le hout, fun herr => absurd rfl herr⟩
  inReset := by simp [hr]
  draws := by simpa [State.DrawsApart] using h.draws

/-- The new draw of DST has the number next to be made, which SRC cannot hold. -/
theorem completeErr (h : s.Inv) (hr : s.rst = false) (k : ErrorKind) : (s.completeErr k).Inv where
  srcWf := h.srcWf
  dstWf := Memory.drawn_wf _ _
  capacities := h.capacities
  latch := fun l hl => by cases hl
  result := fun _ => ⟨Nat.zero_le _, fun _ => rfl⟩
  inReset := by simp [hr]
  draws := ⟨Nat.lt_succ_of_lt h.draws.1, Nat.lt_succ_self _, Nat.ne_of_lt h.draws.1⟩

theorem complete (h : s.Inv) (hr : s.rst = false) {r : Result} (hout : ∀ out, r = .ok out → out.length ≤ s.dstCap) :
    (s.complete r).Inv := by
  cases r with
  | ok out => exact h.completeOk hr (hout out rfl)
  | err k => exact h.completeErr hr k

theorem dropWrite (h : s.Inv) (hr : s.rst = false) : s.dropWrite.Inv :=
  ⟨h.srcWf, h.dstWf, h.capacities, h.latch, h.result, by simp [hr], h.draws⟩

theorem unlessBusy (h : s.Inv) (hr : s.rst = false) {stored : State} (hs : s.eng = .idle → stored.Inv) :
    (Machine.unlessBusy s stored).Inv := by
  rcases s.idle_or_running with hi | ⟨l, hl⟩
  · rw [unlessBusy_idle hi]; exact hs hi
  · rw [unlessBusy_running hl]; exact h.dropWrite hr

theorem accept (h : s.Inv) (hr : s.rst = false) (w : Word) : (s.accept w).Inv where
  srcWf := h.srcWf
  dstWf := h.dstWf
  capacities := h.capacities
  latch := fun l hl => by cases hl; exact ⟨rfl, rfl, rfl, rfl⟩
  result := fun hi => by cases hi
  inReset := by simp [hr]
  draws := h.draws

/-- DONE stays clear while Busy, where a write of STATUS can only clear it. -/
theorem clearStatus (h : s.Inv) (hr : s.rst = false) (v : Word) : (s.clearStatus v).Inv where
  srcWf := h.srcWf
  dstWf := h.dstWf
  capacities := h.capacities
  latch := fun l hl => by
    obtain ⟨hcap, hdone, herr, hlen⟩ := h.latch l hl
    exact ⟨hcap, by simp [hdone], herr, hlen⟩
  result := h.result
  inReset := by simp [hr]
  draws := h.draws

/-- An operand register may take any value while no latch has to agree with it. -/
theorem setOperands (h : s.Inv) (hr : s.rst = false) (hi : s.eng = .idle) (ctrl : Ctrl) (srcLen factor width : Word) :
    State.Inv { s with ctrl := ctrl, srcLen := srcLen, factor := factor, width := width } where
  srcWf := h.srcWf
  dstWf := h.dstWf
  capacities := h.capacities
  latch := fun l hl => by cases hi.symm.trans hl
  result := h.result
  inReset := by simp [hr]
  draws := h.draws

theorem writeRegister (h : s.Inv) (hr : s.rst = false) (r : Option Reg) (v : Word) :
    (Machine.writeRegister s r v).Inv := by
  match r with
  | none | some .id | some .dstLen | some .srcCapr | some .dstCapr => exact h
  | some .cmd => exact h.unlessBusy hr fun _ => h.accept hr v
  | some .status => exact h.clearStatus hr v
  | some .ctrl => exact h.unlessBusy hr fun hi => h.setOperands hr hi (s.ctrl.write v) s.srcLen s.factor s.width
  | some .srcLen => exact h.unlessBusy hr fun hi => h.setOperands hr hi s.ctrl v s.factor s.width
  | some .factor => exact h.unlessBusy hr fun hi => h.setOperands hr hi s.ctrl s.srcLen v s.width
  | some .width => exact h.unlessBusy hr fun hi => h.setOperands hr hi s.ctrl s.srcLen s.factor v

theorem storeSrc (h : s.Inv) (hr : s.rst = false) {i : Nat} {bytes : List Byte} (hb : i + bytes.length ≤ s.srcCap) :
    State.Inv { s with src := s.src.store i bytes } :=
  ⟨Memory.store_wf h.srcWf hb, h.dstWf, h.capacities, h.latch, h.result, by simp [hr],
    by simpa [State.DrawsApart] using h.draws⟩

theorem storeDst (h : s.Inv) (hr : s.rst = false) {i : Nat} {bytes : List Byte} (hb : i + bytes.length ≤ s.dstCap) :
    State.Inv { s with dst := s.dst.store i bytes } :=
  ⟨h.srcWf, Memory.store_wf h.dstWf hb, h.capacities, h.latch, h.result, by simp [hr],
    by simpa [State.DrawsApart] using h.draws⟩

/-- A draw made for the host alone (R197) leaves the buffers' draws below the count. -/
theorem drawOnce (h : s.Inv) : State.Inv { s with draws := s.draws + 1 } :=
  ⟨h.srcWf, h.dstWf, h.capacities, h.latch, h.result, h.inReset,
    Nat.lt_succ_of_lt h.draws.1, Nat.lt_succ_of_lt h.draws.2.1, h.draws.2.2⟩

end State.Inv

/-! ### Served accesses keep the invariant -/

/-- A served access of the SRC window lies inside SRC (R54). -/
theorem State.Serves.src_fits {s : State} {a n i : Nat} (hs : s.Serves a n) (hp : placeOf a = some (.src i)) :
    i + n ≤ s.srcCap := by
  have hl := (accessLegal_iff hp).mpr hs
  simp only [accessLegal, Bool.and_eq_true, decide_eq_true_eq] at hl
  exact hl.2

/-- A served access of the DST window lies inside DST (R54). -/
theorem State.Serves.dst_fits {s : State} {a n i : Nat} (hs : s.Serves a n) (hp : placeOf a = some (.dst i)) :
    i + n ≤ s.dstCap := by
  have hl := (accessLegal_iff hp).mpr hs
  simp only [accessLegal, Bool.and_eq_true, decide_eq_true_eq] at hl
  exact hl.2

theorem State.Inv.serveRead {s : State} (h : s.Inv) (p : Place) (n : Nat) : (Machine.serveRead s p n).Inv := by
  cases p with
  | page a | src i | reserved => exact h.respond _
  | dst i =>
    simp only [Machine.serveRead]
    split
    · exact h.drawOnce.respond _
    · exact h.respond _

theorem State.Inv.serveWrite {s : State} (h : s.Inv) (hr : s.rst = false) {a n : Nat} {p : Place}
    (hp : placeOf a = some p) (hs : s.Serves a n) (v : Word) : (Machine.serveWrite s p n v).Inv := by
  cases p with
  | page a => exact (h.writeRegister hr _ v).respond _
  | src i => exact (h.unlessBusy hr fun _ => h.storeSrc hr (by simpa using hs.src_fits hp)).respond _
  | dst i => exact (h.unlessBusy hr fun _ => h.storeDst hr (by simpa using hs.dst_fits hp)).respond _
  | reserved => exact h.respond _

/-- Every kind of step keeps the invariant. -/
theorem State.Inv.step {s t : State} (h : s.Inv) (hst : Machine.step s = .next t) : t.Inv := by
  obtain ⟨rest, rfl, -, -⟩ | ⟨rest, l, ⟨hr, -⟩, -, rfl⟩ | ⟨level, rest, -, rfl⟩ | ⟨a, n, rest, -, -, -, hread⟩ |
    ⟨a, n, v, rest, -, hr, -, hwrite⟩ := step_cases hst
  · exact h.withTurns rest
  · exact (h.withTurns rest).complete hr fun _ hok => length_of_resultOf_ok hok
  · exact (h.withTurns rest).driveReset level
  · obtain ⟨-, rfl⟩ | ⟨p, -, -, rfl⟩ := hread
    · exact (h.withTurns rest).respond _
    · exact (h.withTurns rest).serveRead p n
  · obtain ⟨-, rfl⟩ | ⟨p, hp, hs, rfl⟩ := hwrite
    · exact (h.withTurns rest).respond _
    · exact (h.withTurns rest).serveWrite hr hp hs v

/-! ### Independence (R11, R150) -/

/-- The source of a command depends only on SRC's capacity and the bytes of SRC below `srclen`. -/
theorem State.source_congr {s s' : State} {l : Latch} (hcap : s.srcCapr = s'.srcCapr)
    (hbytes : ∀ k < l.srclen.toNat, s.src.read k = s'.src.read k) : s.source l = s'.source l := by
  have hc : s.srcCap = s'.srcCap := congrArg BitVec.toNat hcap
  have hload : s.src.load 0 l.sourceLength = s'.src.load 0 l.sourceLength :=
    Memory.load_congr fun k hk => by simpa using hbytes k hk
  rw [State.source, State.source, hc, hload]

/-- A command's result decides what a completion announces, whatever state it completes in. -/
theorem State.complete_outcome_eq (s s' : State) (r : Result) :
    (s.complete r).err = (s'.complete r).err ∧ (s.complete r).dstLen = (s'.complete r).dstLen ∧
      ((s.complete r).err = none →
        ∀ a < (s.complete r).dstLen.toNat, (s.complete r).dst.read a = (s'.complete r).dst.read a) := by
  cases r with
  | ok out =>
    refine ⟨rfl, rfl, fun _ a ha => ?_⟩
    have hlen : a < out.length := ha.trans_le (Nat.mod_le _ _)
    rw [State.complete_ok, State.complete_ok, State.read_completeOk s out a hlen, State.read_completeOk s' out a hlen]
  | err k => exact ⟨rfl, rfl, fun herr => by cases herr⟩

/-! ### The statements -/

/-- Settles O42: reset gives every field its value by definition, and the two opaque capacities are in their range. -/
theorem resetGivesTheRegistersTheirValues : Obligations.ResetGivesTheRegistersTheirValues :=
  ⟨State.reset_atResetValues, rfl, rfl, State.reset_capacitiesOk⟩

/-- Settles O43: both buffers are empty of listed bytes, and the capacities come from Config. -/
theorem invariantHoldsAtReset : Obligations.InvariantHoldsAtReset where
  srcWf := State.reset_memories_wf.1
  dstWf := State.reset_memories_wf.2
  capacities := State.reset_capacitiesOk
  latch := fun l hl => by cases hl
  result := fun _ => ⟨Nat.zero_le _, fun _ => rfl⟩
  inReset := fun _ => State.reset_atResetValues
  draws := by simp [State.DrawsApart, State.reset]

/-- Settles O44, by the cases of a step and one preservation lemma for each operation. -/
theorem stepKeepsTheInvariant : Obligations.StepKeepsTheInvariant := fun _ _ h hst => h.step hst

/-- Settles O27: both states complete with one and the same result. -/
theorem outcomeDependsOnlyOnLatchAndSource : Obligations.OutcomeDependsOnlyOnLatchAndSource := by
  intro s s' l i hl hl' hsrc hdst hbytes
  have hres : commandOf i s.srcCap s.dstCap l (s.source l) = commandOf i s'.srcCap s'.dstCap l (s'.source l) := by
    rw [State.srcCap, State.dstCap, hsrc, hdst, State.source_congr hsrc hbytes]; rfl
  exact ⟨_, _, exec_running hl i, hres ▸ exec_running hl' i, s.complete_outcome_eq s' _⟩

end Sys2Proof.Machine
end

section
/-! PROOFS. What a step can change of the engine, the buffers and WBUSY, and what the register page answers to every
read and write, Idle and Busy (10_state.md). -/

namespace Sys2Proof.Machine

/-! ### The register page's offsets (R21 to R30) -/

theorem Reg.atOffset_offset (r : Reg) : Reg.atOffset r.offset = some r := by cases r <;> rfl

theorem Reg.offset_lt (r : Reg) : r.offset < 0x100000 := by cases r <;> decide

theorem Reg.atOffset_eq_none {a : Nat} : Reg.atOffset a = none ↔ ∀ r : Reg, a ≠ r.offset := by
  constructor
  · rintro h r rfl
    simp [Reg.atOffset_offset] at h
  · intro h
    cases hr : Reg.atOffset a with
    | none => rfl
    | some r => exact absurd (Reg.offset_of_atOffset hr) (h r)

/-! ### After a completion, with a result or an error (R153) -/

section
variable (s : State) (r : Result)

@[simp] theorem State.complete_eng : (s.complete r).eng = .idle := by cases r <;> rfl
@[simp] theorem State.complete_done : (s.complete r).done = true := by cases r <;> rfl
@[simp] theorem State.complete_wbusy : (s.complete r).wbusy = s.wbusy := by cases r <;> rfl
@[simp] theorem State.complete_src : (s.complete r).src = s.src := by cases r <;> rfl
@[simp] theorem State.complete_srcCapr : (s.complete r).srcCapr = s.srcCapr := by cases r <;> rfl
@[simp] theorem State.complete_dstCapr : (s.complete r).dstCapr = s.dstCapr := by cases r <;> rfl

theorem State.sameOutside_complete : s.SameOutside (s.complete r) := by
  cases r with
  | ok out => exact s.sameOutside_completeOk out
  | err k => exact s.sameOutside_completeErr k

end

/-! ### Where a served access lies (R50 to R54) -/

theorem State.Serves.place_cases {s : State} {a n : Nat} {p : Place} (hs : s.Serves a n) (hp : placeOf a = some p) :
    (p = .page a ∧ pageAccess a n) ∨ (p = .src (a - 0x100000) ∧ windowAccess 0x100000 s.srcCap a n) ∨
      (p = .dst (a - 0x200000) ∧ windowAccess 0x200000 s.dstCap a n) ∨ (p = .reserved ∧ reservedAccess a n) := by
  rcases hs with h | h | h | h
  · rw [placeOf_page h.2.2] at hp
    cases hp
    exact .inl ⟨rfl, h⟩
  · rw [placeOf_src h.2.1 h.2.2.1] at hp
    cases hp
    exact .inr (.inl ⟨rfl, h⟩)
  · rw [placeOf_dst h.2.1 h.2.2.1] at hp
    cases hp
    exact .inr (.inr (.inl ⟨rfl, h⟩))
  · rw [placeOf_reserved h.2.1 h.2.2] at hp
    cases hp
    exact .inr (.inr (.inr ⟨rfl, h⟩))

/-! ### A served write, Idle and Busy -/

/-- The offsets of the registers whose writes a Busy engine drops (R196). -/
def DropOffset (a : Nat) : Prop := a = 0x04 ∨ a = 0x08 ∨ a = 0x10 ∨ a = 0x14 ∨ a = 0x18

/-- A write of the register page while Busy is dropped, clears bits of STATUS, or is ignored (R24, R30, R196). -/
theorem writeRegister_running {s : State} {l : Latch} (h : s.Running l) (a : Nat) (v : Word) :
    (DropOffset a ∧ writeRegister s (Reg.atOffset a) v = s.dropWrite) ∨
      (a = 0x0C ∧ writeRegister s (Reg.atOffset a) v = s.clearStatus v) ∨
      (¬ DropOffset a ∧ a ≠ 0x0C ∧ writeRegister s (Reg.atOffset a) v = s) := by
  by_cases hd : DropOffset a
  · left
    refine ⟨hd, ?_⟩
    rcases hd with rfl | rfl | rfl | rfl | rfl <;> exact unlessBusy_running h _
  by_cases hs : a = 0x0C
  · subst hs
    exact .inr (.inl ⟨rfl, rfl⟩)
  · refine .inr (.inr ⟨hd, hs, ?_⟩)
    cases hr : Reg.atOffset a with
    | none => rfl
    | some r =>
      cases Reg.offset_of_atOffset hr
      cases r with
      | id | dstLen | srcCapr | dstCapr => rfl
      | status => exact absurd rfl hs
      | ctrl | cmd | srcLen | factor | width => exact absurd (by simp [DropOffset, Reg.offset]) hd

theorem serveWrite_page (s : State) (a n : Nat) (v : Word) :
    serveWrite s (.page a) n v = (writeRegister s (Reg.atOffset a) v).respond .written := rfl

/-- In the register page the writes a Busy engine drops are those at the five offsets (R196). -/
theorem State.drops_page {s : State} {a : Nat} (h : a < 0x100000) : s.Drops a 4 ↔ DropOffset a := by
  constructor
  · rintro (⟨-, hd⟩ | ⟨-, hge, -⟩ | ⟨-, hge, -⟩)
    · exact hd
    all_goals omega
  · exact fun hd => .inl ⟨rfl, hd⟩

theorem State.Drops.serves {s : State} {a n : Nat} (h : s.Drops a n) : s.Serves a n := by
  obtain ⟨rfl, h⟩ | h | h := h
  · exact .inl ⟨rfl, by omega, by omega⟩
  · exact .inr (.inl h)
  · exact .inr (.inr (.inl h))

theorem State.not_drops_status {s : State} {a n : Nat} (h : n = 4 ∧ a = 0x0C) : ¬ s.Drops a n := by
  obtain ⟨rfl, rfl⟩ := h
  rw [State.drops_page (by decide)]
  simp [DropOffset]

theorem State.not_drops_reserved {s : State} {a n : Nat} (h : 0x300000 ≤ a) : ¬ s.Drops a n := by
  rintro (⟨-, hd⟩ | ⟨-, -, hlt, -⟩ | ⟨-, -, hlt, -⟩) <;> omega

/-- All that a served write of a Busy block can be (R196). -/
theorem serveWrite_running_cases {s : State} {l : Latch} (h : s.Running l) {a n : Nat} {p : Place}
    (hp : placeOf a = some p) (hs : s.Serves a n) (v : Word) :
    (s.Drops a n ∧ serveWrite s p n v = s.dropWrite.respond .written) ∨
      ((n = 4 ∧ a = 0x0C) ∧ serveWrite s p n v = (s.clearStatus v).respond .written) ∨
      (¬ s.Drops a n ∧ ¬ (n = 4 ∧ a = 0x0C) ∧ serveWrite s p n v = s.respond .written) := by
  obtain ⟨rfl, rfl, -, ha⟩ | ⟨rfl, hw⟩ | ⟨rfl, hw⟩ | ⟨rfl, -, hge, -⟩ := hs.place_cases hp
  · rw [State.drops_page ha, serveWrite_page]
    obtain ⟨hd, hw⟩ | ⟨hd, hw⟩ | ⟨hd, hne, hw⟩ := writeRegister_running h a v
    · exact .inl ⟨hd, by rw [hw]⟩
    · exact .inr (.inl ⟨⟨rfl, hd⟩, by rw [hw]⟩)
    · exact .inr (.inr ⟨hd, fun h => hne h.2, by rw [hw]⟩)
  · exact .inl ⟨.inr (.inl hw), by simp only [serveWrite, unlessBusy_running h]⟩
  · exact .inl ⟨.inr (.inr hw), by simp only [serveWrite, unlessBusy_running h]⟩
  · exact .inr (.inr ⟨State.not_drops_reserved hge, by omega, rfl⟩)

/-- The operand register at an offset takes a value; at any other offset nothing changes (R25 to R30). -/
def State.storeOperand (s : State) (a : Nat) (v : Word) : State :=
  { s with
    srcLen := if a = 0x10 then v else s.srcLen
    factor := if a = 0x14 then v else s.factor
    width := if a = 0x18 then v else s.width }

theorem State.storeOperand_ignored {s : State} {a : Nat} (v : Word) (h : a ≠ 0x10 ∧ a ≠ 0x14 ∧ a ≠ 0x18) :
    s.storeOperand a v = s := by
  simp [State.storeOperand, h]

/-- A write of the register page while Idle is of CTRL, of CMD, of STATUS, or of an operand register where there is one
(R21 to R30). -/
theorem writeRegister_idle {s : State} (h : s.eng = .idle) (a : Nat) (v : Word) :
    (a = 0x04 ∧ writeRegister s (Reg.atOffset a) v = { s with ctrl := s.ctrl.write v }) ∨
      (a = 0x08 ∧ writeRegister s (Reg.atOffset a) v = s.accept v) ∨
      (a = 0x0C ∧ writeRegister s (Reg.atOffset a) v = s.clearStatus v) ∨
      ((a ≠ 0x04 ∧ a ≠ 0x08 ∧ a ≠ 0x0C) ∧ writeRegister s (Reg.atOffset a) v = s.storeOperand a v) := by
  cases hr : Reg.atOffset a with
  | none =>
    have hne := Reg.atOffset_eq_none.mp hr
    exact .inr (.inr (.inr ⟨⟨hne .ctrl, hne .cmd, hne .status⟩,
      (State.storeOperand_ignored v ⟨hne .srcLen, hne .factor, hne .width⟩).symm⟩))
  | some r =>
    cases Reg.offset_of_atOffset hr
    cases r with
    | ctrl => exact .inl ⟨rfl, unlessBusy_idle h _⟩
    | cmd => exact .inr (.inl ⟨rfl, unlessBusy_idle h _⟩)
    | status => exact .inr (.inr (.inl ⟨rfl, rfl⟩))
    | srcLen | factor | width => exact .inr (.inr (.inr ⟨by decide, unlessBusy_idle h _⟩))
    | id | dstLen | srcCapr | dstCapr => exact .inr (.inr (.inr ⟨by decide, rfl⟩))

/-- All that a served write of an Idle block can be. -/
theorem serveWrite_idle_cases {s : State} (h : s.eng = .idle) {a n : Nat} {p : Place} (hp : placeOf a = some p)
    (hs : s.Serves a n) (v : Word) :
    ((n = 4 ∧ a = 0x04) ∧ serveWrite s p n v = { s with ctrl := s.ctrl.write v }.respond .written) ∨
      ((n = 4 ∧ a = 0x08) ∧ serveWrite s p n v = (s.accept v).respond .written) ∨
      ((n = 4 ∧ a = 0x0C) ∧ serveWrite s p n v = (s.clearStatus v).respond .written) ∨
      ((a ≠ 0x04 ∧ a ≠ 0x08 ∧ a ≠ 0x0C) ∧ (pageAccess a n ∨ reservedAccess a n) ∧
        serveWrite s p n v = (s.storeOperand a v).respond .written) ∨
      (windowAccess 0x100000 s.srcCap a n ∧
        serveWrite s p n v = { s with src := s.src.store (a - 0x100000) (bytesOf n v) }.respond .written) ∨
      (windowAccess 0x200000 s.dstCap a n ∧
        serveWrite s p n v = { s with dst := s.dst.store (a - 0x200000) (bytesOf n v) }.respond .written) := by
  obtain ⟨rfl, hw⟩ | ⟨rfl, hw⟩ | ⟨rfl, hw⟩ | ⟨rfl, hw⟩ := hs.place_cases hp
  · have hn := hw.1
    rw [serveWrite_page]
    obtain ⟨ha, he⟩ | ⟨ha, he⟩ | ⟨ha, he⟩ | ⟨ha, he⟩ := writeRegister_idle h a v <;> rw [he]
    · exact .inl ⟨⟨hn, ha⟩, rfl⟩
    · exact .inr (.inl ⟨⟨hn, ha⟩, rfl⟩)
    · exact .inr (.inr (.inl ⟨⟨hn, ha⟩, rfl⟩))
    · exact .inr (.inr (.inr (.inl ⟨ha, .inl hw, rfl⟩)))
  · exact .inr (.inr (.inr (.inr (.inl ⟨hw, by simp only [serveWrite, unlessBusy_idle h]⟩))))
  · exact .inr (.inr (.inr (.inr (.inr ⟨hw, by simp only [serveWrite, unlessBusy_idle h]⟩))))
  · have hge := hw.2.1
    refine .inr (.inr (.inr (.inl ⟨by omega, .inr hw, ?_⟩)))
    rw [State.storeOperand_ignored v (by omega)]
    rfl

/-! ### The step -/

@[simp] theorem State.withTurns_drops {s : State} {ts : List Turn} {a n : Nat} :
    (s.withTurns ts).Drops a n ↔ s.Drops a n := Iff.rfl

/-- A step changes nothing but the turns, the response and the count of draws, unless a command completes, the reset
input resets the block, or a write is served. -/
theorem step_changes {s t : State} (h : step s = .next t) :
    (∃ rest resp draws, t = { s with turns := rest, resp := resp, draws := draws }) ∨
      (∃ rest l r, s.EngineNext rest ∧ s.Running l ∧ t = (s.withTurns rest).complete r) ∨
      (∃ level rest, s.turns = .reset level :: rest ∧ t = (s.withTurns rest).applyReset level) ∨
      (∃ a n v rest p, s.turns = .write a n v :: rest ∧ s.rst = false ∧ placeOf a = some p ∧ s.Serves a n ∧
        t = serveWrite (s.withTurns rest) p n v) := by
  obtain ⟨rest, rfl, -, -⟩ | ⟨rest, l, hnext, hl, rfl⟩ | ⟨level, rest, hturns, rfl⟩ |
    ⟨a, n, rest, -, -, -, ⟨-, rfl⟩ | ⟨p, -, -, rfl⟩⟩ |
    ⟨a, n, v, rest, hturns, hr, -, ⟨-, rfl⟩ | ⟨p, hp, hs, rfl⟩⟩ := step_cases h
  · exact .inl ⟨_, _, _, rfl⟩
  · exact .inr (.inl ⟨rest, l, _, hnext, hl, rfl⟩)
  · obtain hd | hd := (s.withTurns rest).driveReset_cases level
    · exact .inl ⟨_, _, _, hd⟩
    · exact .inr (.inr (.inl ⟨level, rest, hturns, hd⟩))
  · exact .inl ⟨_, _, _, rfl⟩
  · obtain ⟨v, draws, hread⟩ := serveRead_eq (s.withTurns rest) p n
    exact .inl ⟨_, _, _, hread⟩
  · exact .inl ⟨_, _, _, rfl⟩
  · exact .inr (.inr (.inr ⟨a, n, v, rest, p, hturns, hr, hp, hs, rfl⟩))

/-! ### What a completion, a write and a reset move -/

/-- Settles O26: a completion keeps all outside STATUS, DST_LEN and DST, and a result fits DST. -/
theorem commandsChangeOnlyStatusAndDst : Obligations.CommandsChangeOnlyStatusAndDst := by
  intro s t l i hl ht
  rw [exec_running hl] at ht
  cases ht
  refine ⟨State.complete_eng _ _, State.complete_done _ _, s.sameOutside_complete _, fun herr => ?_⟩
  cases hres : commandOf i s.srcCap s.dstCap l (s.source l) with
  | ok out =>
    have hfits := length_of_command_ok hres
    obtain ⟨-, -, -, hlen, hkept, -⟩ := s.completeOk_completedWith hfits
    rw [State.complete_ok, hlen]
    exact ⟨rfl, hfits, hkept⟩
  | err k => simp [hres] at herr

/-- Settles O10: of the changes a step can make only acceptance, completion and reset touch the engine. -/
theorem engineMovesOnlyByAcceptanceCompletionReset : Obligations.EngineMovesOnlyByAcceptanceCompletionReset := by
  intro s t hst
  obtain ⟨_, _, _, rfl⟩ | ⟨rest, l, r, hnext, hl, rfl⟩ | ⟨level, rest, hturns, rfl⟩ |
    ⟨a, n, v, rest, p, hturns, hr, hp, hs, rfl⟩ := step_changes hst
  · exact ⟨fun hi hmoved => absurd hi hmoved, fun l hl hmoved => absurd hl hmoved⟩
  · exact ⟨fun _ hmoved => absurd (State.complete_eng _ _) hmoved,
      fun _ _ _ => ⟨State.complete_eng _ _, .inr ⟨rest, hnext, State.complete_done _ _⟩⟩⟩
  · exact ⟨fun _ hmoved => absurd rfl hmoved, fun _ _ _ => ⟨rfl, .inl ⟨level, rest, hturns⟩⟩⟩
  · constructor
    · intro hi hmoved
      obtain ⟨-, he⟩ | ⟨⟨rfl, rfl⟩, he⟩ | ⟨-, he⟩ | ⟨-, -, he⟩ | ⟨-, he⟩ | ⟨-, he⟩ :=
        serveWrite_idle_cases (s := s.withTurns rest) hi hp hs v <;> rw [he] at hmoved ⊢
      · exact absurd hi hmoved
      · exact ⟨v, rest, hturns, hr, rfl⟩
      all_goals exact absurd hi hmoved
    · intro l hl hmoved
      obtain ⟨_, _, he, -⟩ := serveWrite_running (s := s.withTurns rest) hl p n v
      rw [he] at hmoved
      exact absurd hl hmoved

/-- A served write reaches a buffer only through its own window and while Idle, and never a capacity (R29, R31, R32,
R196). -/
theorem serveWrite_buffers {s : State} {a n : Nat} {p : Place} (hp : placeOf a = some p) (hs : s.Serves a n)
    (v : Word) :
    ((serveWrite s p n v).src = s.src ∨ s.eng = .idle ∧ windowAccess 0x100000 s.srcCap a n) ∧
      ((serveWrite s p n v).dst = s.dst ∨ s.eng = .idle ∧ windowAccess 0x200000 s.dstCap a n) ∧
      (serveWrite s p n v).srcCapr = s.srcCapr ∧ (serveWrite s p n v).dstCapr = s.dstCapr := by
  rcases s.idle_or_running with hi | ⟨l, hl⟩
  · obtain ⟨rfl, -⟩ | ⟨rfl, hw⟩ | ⟨rfl, hw⟩ | ⟨rfl, -⟩ := hs.place_cases hp
    · obtain ⟨hsrc, hdst, hsrcCapr, hdstCapr, -, -⟩ := writeRegister_memories s (Reg.atOffset a) v
      exact ⟨.inl hsrc, .inl hdst, hsrcCapr, hdstCapr⟩
    · simp only [serveWrite, unlessBusy_idle hi]
      exact ⟨.inr ⟨hi, hw⟩, .inl rfl, rfl, rfl⟩
    · simp only [serveWrite, unlessBusy_idle hi]
      exact ⟨.inl rfl, .inr ⟨hi, hw⟩, rfl, rfl⟩
    · exact ⟨.inl rfl, .inl rfl, rfl, rfl⟩
  · obtain ⟨_, _, he, -⟩ := serveWrite_running hl p n v
    rw [he]
    exact ⟨.inl rfl, .inl rfl, rfl, rfl⟩

/-- Settles O30: a served write reaches only the buffer whose window it names, and none while Busy. -/
theorem buffersChangeOnlyByHostCompletionReset : Obligations.BuffersChangeOnlyByHostCompletionReset := by
  intro s t hst
  obtain ⟨_, _, _, rfl⟩ | ⟨rest, l, r, hnext, hl, rfl⟩ | ⟨level, rest, hturns, rfl⟩ |
    ⟨a, n, v, rest, p, hturns, hr, hp, hs, rfl⟩ := step_changes hst
  · exact ⟨fun hsrc => absurd rfl hsrc, fun hdst => absurd rfl hdst, rfl, rfl⟩
  · exact ⟨fun hsrc => absurd (State.complete_src _ _) hsrc, fun _ => .inr (.inr ⟨l, rest, hl, hnext⟩),
      State.complete_srcCapr _ _, State.complete_dstCapr _ _⟩
  · exact ⟨fun _ => .inl ⟨level, rest, hturns⟩, fun _ => .inl ⟨level, rest, hturns⟩, rfl, rfl⟩
  · obtain ⟨hsrc, hdst, hsrcCapr, hdstCapr⟩ := serveWrite_buffers (s := s.withTurns rest) hp hs v
    refine ⟨fun h => ?_, fun h => ?_, hsrcCapr, hdstCapr⟩
    · obtain ⟨hi, hw⟩ := hsrc.resolve_left h
      exact .inr ⟨hi, a, n, v, rest, hturns, hw⟩
    · obtain ⟨hi, hw⟩ := hdst.resolve_left h
      exact .inr (.inl ⟨hi, a, n, v, rest, hturns, hw⟩)

/-- WBUSY after a served write: set by a drop, cleared by a write of STATUS with bit 8 set, else as before (R24,
R196). -/
theorem serveWrite_wbusy_cases {s : State} {a n : Nat} {p : Place} (hp : placeOf a = some p) (hs : s.Serves a n)
    (v : Word) :
    ((∃ l, s.Running l) ∧ s.Drops a n ∧ (serveWrite s p n v).wbusy = true) ∨
      ((n = 4 ∧ a = 0x0C) ∧ (serveWrite s p n v).wbusy = (s.wbusy && !v.getLsbD 8)) ∨
      (serveWrite s p n v).wbusy = s.wbusy := by
  rcases s.idle_or_running with hi | ⟨l, hl⟩
  · obtain ⟨-, he⟩ | ⟨-, he⟩ | ⟨hstatus, he⟩ | ⟨-, -, he⟩ | ⟨-, he⟩ | ⟨-, he⟩ := serveWrite_idle_cases hi hp hs v <;>
      rw [he]
    · exact .inr (.inr rfl)
    · exact .inr (.inr rfl)
    · exact .inr (.inl ⟨hstatus, rfl⟩)
    all_goals exact .inr (.inr rfl)
  · obtain ⟨hd, he⟩ | ⟨hstatus, he⟩ | ⟨-, -, he⟩ := serveWrite_running_cases hl hp hs v <;> rw [he]
    · exact .inl ⟨⟨l, hl⟩, hd, rfl⟩
    · exact .inr (.inl ⟨hstatus, rfl⟩)
    · exact .inr (.inr rfl)

/-- Settles O31: WBUSY is set by a dropped write alone, and falls by a write of STATUS or reset. -/
theorem wbusyIsSticky : Obligations.WbusyIsSticky := by
  intro s t hst
  obtain ⟨_, _, _, rfl⟩ | ⟨rest, l, r, hnext, hl, rfl⟩ | ⟨level, rest, hturns, rfl⟩ |
    ⟨a, n, v, rest, p, hturns, hr, hp, hs, rfl⟩ := step_changes hst
  · simp +contextual
  · simp +contextual
  · exact ⟨fun _ _ => .inl ⟨level, rest, hturns⟩, fun _ hset => by cases hset⟩
  · obtain ⟨⟨l, hl⟩, hd, he⟩ | ⟨⟨rfl, rfl⟩, he⟩ | he := serveWrite_wbusy_cases (s := s.withTurns rest) hp hs v <;>
      simp only [he, State.withTurns_wbusy]
    · exact ⟨fun _ hclear => (by cases hclear), fun _ _ => ⟨l, a, n, v, rest, hl, hturns, hd⟩⟩
    · exact ⟨fun hset hclear => .inr ⟨v, rest, hturns, by simpa [hset] using hclear⟩, by simp +contextual⟩
    · simp +contextual

/-! ### Which command a step runs -/

/-- The engine's turn runs the command its latched word decodes to. -/
theorem engineTurn_command {s : State} {l : Latch} {i : Instr} (hr : s.rst = false) (hl : s.Running l)
    (hd : decode l.cmd = .command i) : engineTurn s = exec i s := by
  have he : s.eng = .busy l := hl
  simp [engineTurn, hr, State.commandInFlight, he, hd]

/-- Settles O6: with the engine next, the step is the engine's turn. -/
theorem stepRunsTheDecodedCommand : Obligations.StepRunsTheDecodedCommand := fun s _ rest _ hnext hl hd =>
  (step_engineNext hnext).trans (engineTurn_command (s := s.withTurns rest) hnext.1 hl hd)

theorem hostAccess_ne_engineIdle (a n : Nat) (serve : Place → State) (s : State) :
    hostAccess a n serve s ≠ .fault .engineIdle := by
  unfold hostAccess
  repeat' split
  all_goals simp

/-- The engine's turn and the reset input always answer a next state, and a host access stops for other reasons. -/
theorem step_ne_engineIdle (s : State) : step s ≠ .fault .engineIdle := by
  have engine (u : State) : engineTurn u ≠ .fault .engineIdle := by
    obtain ⟨t, ht⟩ := engineTurn_next u
    simp [ht]
  match hturns : s.turns with
  | [] => simpa only [step, hturns] using engine s
  | .engine :: rest => simpa only [step, hturns] using engine (s.withTurns rest)
  | .reset level :: rest => simp [step_reset hturns]
  | .read a n :: rest =>
    rw [step_read hturns]
    exact hostAccess_ne_engineIdle a n _ _
  | .write a n v :: rest =>
    rw [step_write hturns]
    exact hostAccess_ne_engineIdle a n _ _

/-- Settles O13: every meaning is a completion, and the engine's turn asks for a command in flight first. -/
theorem completionIsStuckWhileIdle : Obligations.CompletionIsStuckWhileIdle := fun s hi =>
  ⟨fun i => (exec_eq_completeCommand i s).trans (completeCommand_idle hi _), step_ne_engineIdle s,
    fun rest hnext => (step_engineNext hnext).trans (engineTurn_idle (s := s.withTurns rest) hi)⟩

/-! ### The register page, Busy and Idle -/

/-- A write of STATUS is performed, Busy or not (R24). -/
theorem step_write_status {s : State} {v : Word} {rest : List Turn} (hr : s.rst = false)
    (hturns : s.turns = .write 0x0C 4 v :: rest) :
    step s = .next (((s.withTurns rest).clearStatus v).respond .written) :=
  step_write_served hr hturns (placeOf_page (by decide)) (.inl (by decide))

/-- A write of CTRL is stored, unless the block is Busy (R22, R196). -/
theorem step_write_ctrl {s : State} {v : Word} {rest : List Turn} (hr : s.rst = false)
    (hturns : s.turns = .write 0x04 4 v :: rest) :
    step s = .next ((unlessBusy (s.withTurns rest)
      { s.withTurns rest with ctrl := s.ctrl.write v }).respond .written) :=
  step_write_served hr hturns (placeOf_page (by decide)) (.inl (by decide))

/-- Settles O33: a served write of a Busy block is one of three, and a dropped write is a served one. -/
theorem writesWhileBusyAreDropped : Obligations.WritesWhileBusyAreDropped := by
  intro s l a n v rest hr hl hturns ha
  have served (hs : s.Serves a n) :
      (s.Drops a n ∧ step s = .next ((s.withTurns rest).dropWrite.respond .written)) ∨
        ((n = 4 ∧ a = 0x0C) ∧ step s = .next (((s.withTurns rest).clearStatus v).respond .written)) ∨
        (¬ s.Drops a n ∧ ¬ (n = 4 ∧ a = 0x0C) ∧ step s = .next ((s.withTurns rest).respond .written)) := by
    obtain ⟨p, hp⟩ := placeOf_of_serves ha
    rw [step_write_served hr hturns hp hs]
    simpa using serveWrite_running_cases (s := s.withTurns rest) hl hp hs v
  refine ⟨fun hd => ?_, ?_, fun hs hd hstatus => ?_, fun hs => ?_⟩
  · obtain ⟨-, he⟩ | ⟨hstatus, -⟩ | ⟨hnd, -, -⟩ := served hd.serves
    · exact he
    · exact absurd hd (State.not_drops_status hstatus)
    · exact absurd hd hnd
  · rintro ⟨rfl, rfl⟩
    exact step_write_status hr hturns
  · obtain ⟨hd', -⟩ | ⟨hstatus', -⟩ | ⟨-, -, he⟩ := served hs
    · exact absurd hd' hd
    · exact absurd hstatus' hstatus
    · exact he
  · rw [step_write hturns]
    exact hostAccess_busError (s := s.withTurns rest) hr ha hs _

/-! ### CTRL and STATUS as words (R22, R24) -/

theorem Ctrl.toNat_word (c : Ctrl) : c.word.toNat = c.rnd.field + 4 * c.ptail.field := by
  obtain ⟨rnd, ptail⟩ := c
  cases rnd <;> cases ptail <;> rfl

theorem Ctrl.word_fields (c : Ctrl) :
    c.word.extractLsb' 0 2 = BitVec.ofNat 2 c.rnd.field ∧ c.word.extractLsb' 2 2 = BitVec.ofNat 2 c.ptail.field ∧
      c.word.extractLsb' 4 28 = 0#28 := by
  obtain ⟨rnd, ptail⟩ := c
  cases rnd <;> cases ptail <;> exact ⟨rfl, rfl, rfl⟩

/-- The RND field of a written value is taken, and the reserved 3 keeps the field (R22). -/
theorem Rounding.field_written (rnd : Rounding) :
    ∀ x : BitVec 2, BitVec.ofNat 2 ((Rounding.ofField x.toNat).getD rnd).field =
      if x = 3#2 then BitVec.ofNat 2 rnd.field else x := by
  cases rnd <;> decide

/-- The PTAIL field of a written value is taken, and the reserved 3 keeps the field (R22). -/
theorem TailPolicy.field_written (ptail : TailPolicy) :
    ∀ x : BitVec 2, BitVec.ofNat 2 ((TailPolicy.ofField x.toNat).getD ptail).field =
      if x = 3#2 then BitVec.ofNat 2 ptail.field else x := by
  cases ptail <;> decide

/-- Settles O37: each field of the word read after the write, taken apart from the others. -/
theorem ctrlWriteKeepsAFieldWrittenReserved : Obligations.CtrlWriteKeepsAFieldWrittenReserved := by
  intro s v rest hr hturns
  rw [step_write_ctrl hr hturns]
  constructor
  · intro hi
    obtain ⟨hrnd, hptail, -⟩ := s.ctrl.word_fields
    obtain ⟨hrnd', hptail', hhigh⟩ := (s.ctrl.write v).word_fields
    refine ⟨s.ctrl.write v, ?_, ?_, ?_, hhigh⟩
    · rw [unlessBusy_idle (by exact hi)]
      rfl
    · rw [hrnd, hrnd']
      exact Rounding.field_written s.ctrl.rnd _
    · rw [hptail, hptail']
      exact TailPolicy.field_written s.ctrl.ptail _
  · intro l hl
    rw [unlessBusy_running (l := l) (by exact hl)]
    rfl

theorem ErrorKind.code_lt (k : ErrorKind) : k.code < 16 := by cases k <;> decide

theorem State.errCode_lt (s : State) : s.errCode < 16 := by
  unfold State.errCode
  split
  · decide
  · exact ErrorKind.code_lt _

theorem State.toNat_statusWord (s : State) :
    s.statusWord.toNat = s.isBusy.toNat + 2 * s.done.toNat + 16 * s.errCode + 256 * s.wbusy.toNat := by
  have hbusy := s.isBusy.toNat_le
  have hdone := s.done.toNat_le
  have herr := s.errCode_lt
  have hwbusy := s.wbusy.toNat_le
  rw [State.statusWord, BitVec.toNat_ofNat]
  exact Nat.mod_eq_of_lt (by omega)

theorem statusMask_eq (v : Word) :
    v &&& 0x102#32 = BitVec.ofNat 32 (2 * (v.getLsbD 1).toNat + 256 * (v.getLsbD 8).toNat) := by
  rw [show 0x102#32 = BitVec.twoPow 32 1 ||| BitVec.twoPow 32 8 by decide, BitVec.and_or_distrib_left,
    BitVec.and_twoPow, BitVec.and_twoPow]
  cases v.getLsbD 1 <;> cases v.getLsbD 8 <;> rfl

/-- Clearing fields of STATUS is masking their bits: no field reaches into another. -/
theorem status_and_not_mask : ∀ (busy done wbusy clearDone clearWbusy : Bool) (code : Fin 16),
    BitVec.ofNat 32 (busy.toNat + 2 * (done && !clearDone).toNat + 16 * code + 256 * (wbusy && !clearWbusy).toNat) =
      BitVec.ofNat 32 (busy.toNat + 2 * done.toNat + 16 * code + 256 * wbusy.toNat) &&&
        ~~~ BitVec.ofNat 32 (2 * clearDone.toNat + 256 * clearWbusy.toNat) := by
  decide

theorem State.statusWord_clearStatus (s : State) (v : Word) :
    (s.clearStatus v).statusWord = s.statusWord &&& ~~~ (v &&& 0x102#32) := by
  rw [statusMask_eq]
  exact status_and_not_mask s.isBusy s.done s.wbusy (v.getLsbD 1) (v.getLsbD 8) ⟨s.errCode, s.errCode_lt⟩

/-- Settles O38: the mask 0x102 selects DONE and WBUSY out of the fields of the STATUS word. -/
theorem statusWriteClearsOnlyDoneAndWbusy : Obligations.StatusWriteClearsOnlyDoneAndWbusy := by
  intro s v rest hr hturns
  exact ⟨_, step_write_status hr hturns, rfl, s.statusWord_clearStatus v, rfl⟩

/-- Settles O39: of the writes an Idle block serves only the store in an operand register is at these offsets. -/
theorem idleRegisterWritesStoreOrAreIgnored : Obligations.IdleRegisterWritesStoreOrAreIgnored := by
  intro s a n v rest hr hi hturns hplace h4 h8 hC
  have hs : s.Serves a n := hplace.imp_right fun h => .inr (.inr h)
  have ha : a < 0x400000 := by omega
  obtain ⟨p, hp⟩ := placeOf_of_serves ha
  rw [step_write_served hr hturns hp hs]
  obtain ⟨⟨-, h⟩, -⟩ | ⟨⟨-, h⟩, -⟩ | ⟨⟨-, h⟩, -⟩ | ⟨-, -, he⟩ | ⟨⟨-, hge, hlt, -⟩, -⟩ | ⟨⟨-, hge, hlt, -⟩, -⟩ :=
    serveWrite_idle_cases (s := s.withTurns rest) hi hp hs v
  · omega
  · omega
  · omega
  · rw [he]
    rfl
  all_goals omega

theorem State.toNat_isBusy (s : State) : s.isBusy.toNat = if s.eng = .idle then 0 else 1 := by
  unfold State.isBusy
  split <;> simp_all

/-- A read of the register page or of the reserved range returns the register at its offset, and 0 where there is none
(R30, R54). -/
theorem step_read_register {s : State} {a n : Nat} {rest : List Turn} (hr : s.rst = false)
    (hturns : s.turns = .read a n :: rest) (hplace : pageAccess a n ∨ reservedAccess a n) :
    step s = .next ((s.withTurns rest).respond (.data (readRegister s (Reg.atOffset a)))) := by
  obtain h | h := hplace
  · exact step_read_served hr hturns (placeOf_page h.2.2) (.inl h)
  · have hnone : Reg.atOffset a = none := Reg.atOffset_eq_none.mpr fun r => by
      have := r.offset_lt
      omega
    rw [step_read_served hr hturns (placeOf_reserved h.2.1 h.2.2) (.inr (.inr (.inr h))), hnone]
    rfl

/-- Settles O36, by the register at the offset, or none. -/
theorem registerReadsReturnTheRegisters : Obligations.RegisterReadsReturnTheRegisters := by
  intro s a n rest hr hturns hplace
  refine ⟨_, step_read_register hr hturns hplace, ?_⟩
  cases hreg : Reg.atOffset a with
  | none =>
    have hne := Reg.atOffset_eq_none.mp hreg
    simp [readRegister, show a ≠ 0x00 from hne .id, show a ≠ 0x04 from hne .ctrl, show a ≠ 0x08 from hne .cmd,
      show a ≠ 0x0C from hne .status, show a ≠ 0x10 from hne .srcLen, show a ≠ 0x14 from hne .factor,
      show a ≠ 0x18 from hne .width, show a ≠ 0x1C from hne .dstLen, show a ≠ 0x20 from hne .srcCapr,
      show a ≠ 0x24 from hne .dstCapr]
  | some r =>
    cases Reg.offset_of_atOffset hreg
    cases r with
    | id | cmd | srcLen | factor | width | dstLen | srcCapr | dstCapr => rfl
    | ctrl => exact s.ctrl.toNat_word
    | status =>
      refine s.toNat_statusWord.trans ?_
      rw [s.toNat_isBusy]
      simp only [Bool.toNat, cond_eq_ite, State.errCode]
      cases s.err with
      | none => rfl
      | some k => cases k <;> rfl

end Sys2Proof.Machine
end

section
/-! PROOFS. The host's accesses (20_memory.md): which of them stop the step, what BusError and a read leave unchanged,
and what the windows and STATUS answer, Idle and Busy. -/

namespace Sys2Proof.Machine

/-! ### The step that takes a host access -/

/-- A read and a write are both one host access, which differ in how they are served (R52). -/
theorem step_access {s : State} {a n : Nat} {rest : List Turn}
    (h : s.turns = .read a n :: rest ∨ ∃ v, s.turns = .write a n v :: rest) :
    ∃ serve, step s = hostAccess a n serve (s.withTurns rest) := by
  obtain h | ⟨v, h⟩ := h
  · exact ⟨_, step_read h⟩
  · exact ⟨_, step_write h⟩

/-- Settles O32: read or write, the access is answered before it is served. -/
theorem illegalAccessGetsBusError : Obligations.IllegalAccessGetsBusError := by
  intro s a n rest hr ha hs hturns
  obtain ⟨serve, he⟩ := step_access hturns
  rw [he]
  exact hostAccess_busError (s := s.withTurns rest) hr ha hs serve

/-- A host access stops the block exactly in reset and outside the region (R50, R190). -/
theorem hostAccess_stops_iff {s : State} {a n : Nat} {serve : Place → State} :
    (¬ ∃ t, hostAccess a n serve s = .next t) ↔ s.rst = true ∨ 0x400000 ≤ a := by
  constructor
  · intro hstop
    by_contra! hin
    obtain ⟨hr, ha⟩ := hin
    replace hr : s.rst = false := Bool.eq_false_iff.mpr hr
    by_cases hs : s.Serves a n
    · obtain ⟨p, hp⟩ := placeOf_of_serves ha
      exact hstop ⟨_, hostAccess_served hr hp hs serve⟩
    · exact hstop ⟨_, hostAccess_busError hr ha hs serve⟩
  · rintro hout ⟨t, ht⟩
    obtain ⟨hr, ha, -⟩ := hostAccess_next ht
    obtain hr' | ha' := hout
    · simp [hr] at hr'
    · omega

/-- The engine's turn and the reset input always answer a next state; every other turn is a host access. -/
theorem step_next_or_accessNext (s : State) : (∃ t, step s = .next t) ∨ ∃ a rest, s.AccessNext a rest := by
  match hturns : s.turns with
  | [] => exact .inl (by simpa only [step, hturns] using engineTurn_next s)
  | .engine :: rest => exact .inl (by simpa only [step, hturns] using engineTurn_next (s.withTurns rest))
  | .reset level :: rest => exact .inl ⟨_, step_reset hturns⟩
  | .read a n :: rest => exact .inr ⟨a, rest, n, .inl hturns⟩
  | .write a n v :: rest => exact .inr ⟨a, rest, n, .inr ⟨v, hturns⟩⟩

/-- Settles O12: a step that stops is a host access, which stops on these two grounds. -/
theorem stepStopsOnlyOnUnservableAccess : Obligations.StepStopsOnlyOnUnservableAccess := by
  intro s
  constructor
  · intro hstop
    obtain ⟨a, rest, n, hturns⟩ := (step_next_or_accessNext s).resolve_left hstop
    obtain ⟨serve, he⟩ := step_access hturns
    rw [he] at hstop
    exact ⟨a, rest, ⟨n, hturns⟩, (hostAccess_stops_iff (s := s.withTurns rest)).mp hstop⟩
  · rintro ⟨a, rest, ⟨n, hturns⟩, hout⟩
    obtain ⟨serve, he⟩ := step_access hturns
    rw [he]
    exact (hostAccess_stops_iff (s := s.withTurns rest)).mpr hout

/-! ### What an access leaves unchanged -/

/-- Settles O35: a read is answered with BusError or served with data. -/
theorem readsHaveNoSideEffect : Obligations.ReadsHaveNoSideEffect := by
  intro s t a n rest hturns hst
  rw [step_read hturns] at hst
  obtain ⟨-, -, ⟨-, rfl⟩ | ⟨p, -, -, rfl⟩⟩ := hostAccess_next hst
  · exact ⟨rfl, by simp [State.respond]⟩
  · obtain ⟨v, draws, he⟩ := serveRead_eq (s.withTurns rest) p n
    rw [he]
    exact ⟨rfl, by simp⟩

/-- A host access to a Busy block moves nothing but the boundary, the count of draws, DONE and WBUSY (R58, R196). -/
theorem step_access_running {s t : State} {l : Latch} {a : Nat} {rest : List Turn} (hl : s.Running l)
    (hacc : s.AccessNext a rest) (hst : step s = .next t) :
    t = { s with turns := rest, resp := t.resp, draws := t.draws, done := t.done, wbusy := t.wbusy } := by
  obtain ⟨n, hturns | ⟨v, hturns⟩⟩ := hacc
  · obtain ⟨he, -⟩ := readsHaveNoSideEffect s t a n rest hturns hst
    rw [he]
  · rw [step_write hturns] at hst
    obtain ⟨-, -, ⟨-, rfl⟩ | ⟨p, -, -, rfl⟩⟩ := hostAccess_next hst
    · rfl
    · obtain ⟨done, wbusy, he, -⟩ := serveWrite_running (s := s.withTurns rest) hl p n v
      rw [he]
      rfl

/-- Settles O9: none of the fields an access to a Busy block can move is an operand or a byte of the command. -/
theorem runningCommandSeesNoLaterWrite : Obligations.RunningCommandSeesNoLaterWrite := by
  intro s t l a rest hl hacc hst
  rw [step_access_running hl hacc hst]
  exact ⟨hl, rfl, rfl, rfl, rfl, rfl, rfl, rfl, rfl, rfl, rfl⟩

/-- Settles O29: of the writes an Idle block serves only an accepted command clears DST_LEN and ERR, and only one into
the DST window reaches DST. -/
theorem resultStaysUntilTheNextCommand : Obligations.ResultStaysUntilTheNextCommand := by
  intro s t hi hst hreset hti
  obtain ⟨_, _, _, rfl⟩ | ⟨rest, l, r, -, hl, rfl⟩ | ⟨level, rest, hturns, rfl⟩ |
    ⟨a, n, v, rest, p, hturns, hr, hp, hs, rfl⟩ := step_changes hst
  · exact ⟨rfl, rfl, fun _ => rfl⟩
  · cases hi.symm.trans hl
  · exact absurd ⟨level, rest, hturns⟩ hreset
  · obtain ⟨-, he⟩ | ⟨-, he⟩ | ⟨-, he⟩ | ⟨-, -, he⟩ | ⟨-, he⟩ | ⟨hw, he⟩ :=
      serveWrite_idle_cases (s := s.withTurns rest) hi hp hs v <;> rw [he] at hti ⊢
    · exact ⟨rfl, rfl, fun _ => rfl⟩
    · cases hti
    · exact ⟨rfl, rfl, fun _ => rfl⟩
    · exact ⟨rfl, rfl, fun _ => rfl⟩
    · exact ⟨rfl, rfl, fun _ => rfl⟩
    · exact ⟨rfl, rfl, fun hno => absurd ⟨a, n, v, rest, hturns, hw⟩ hno⟩

/-! ### The windows (R56, R197) -/

theorem Memory.toNat_windowWord_load (m : Memory) (i : Nat) {n : Nat} (hn : n = 1 ∨ n = 2 ∨ n = 4) :
    (windowWord (m.load i n)).toNat = ∑ k ∈ Finset.range n, (m.read (i + k)).toNat * 256 ^ k := by
  rw [Memory.load_eq_map]
  exact toNat_windowWord _ hn

theorem toNat_windowWord_drawBytes (draw i : Nat) {n : Nat} (hn : n = 1 ∨ n = 2 ∨ n = 4) :
    (windowWord (drawBytes draw i n)).toNat =
      ∑ k ∈ Finset.range n, (Config.freeByte draw (i + k)).toNat * 256 ^ k :=
  toNat_windowWord _ hn

theorem Memory.read_store_bytesOf (m : Memory) (i n : Nat) (v : Word) {k : Nat} (hk : k < n) :
    (m.store i (bytesOf n v)).read (i + k) = v.extractLsb' (8 * k) 8 := by
  rw [Memory.read_store_inside m i k (bytesOf n v) (by simpa using hk), getElem_bytesOf]

/-- A store of `n` bytes at `i` keeps every byte outside `[i, i + n)`. -/
theorem Memory.read_store_outside (m : Memory) {i j : Nat} (bs : List Byte) (hj : j < i ∨ i + bs.length ≤ j) :
    (m.store i bs).read j = m.read j := by
  obtain hj | hj := hj
  · exact m.read_store_below bs hj
  · exact m.read_store_above bs hj

section
variable {s : State} {a n : Nat} {rest : List Turn}

theorem step_read_src (hr : s.rst = false) (hturns : s.turns = .read a n :: rest)
    (hw : windowAccess 0x100000 s.srcCap a n) :
    step s = .next { s with
      turns := rest, resp := some (.data (windowWord (s.src.load (a - 0x100000) n))) } :=
  step_read_served hr hturns (placeOf_src hw.2.1 hw.2.2.1) (.inr (.inl hw))

theorem step_read_dst_idle (hr : s.rst = false) (hi : s.eng = .idle) (hturns : s.turns = .read a n :: rest)
    (hw : windowAccess 0x200000 s.dstCap a n) :
    step s = .next { s with
      turns := rest, resp := some (.data (windowWord (s.dst.load (a - 0x200000) n))) } := by
  rw [step_read_served hr hturns (placeOf_dst hw.2.1 hw.2.2.1) (.inr (.inr (.inl hw)))]
  simp [serveRead, State.isBusy, State.withTurns, State.respond, hi]

theorem step_read_dst_running {l : Latch} (hr : s.rst = false) (hl : s.Running l)
    (hturns : s.turns = .read a n :: rest) (hw : windowAccess 0x200000 s.dstCap a n) :
    step s = .next { s with
      turns := rest, resp := some (.data (windowWord (drawBytes s.draws (a - 0x200000) n))),
      draws := s.draws + 1 } := by
  have he : s.eng = .busy l := hl
  rw [step_read_served hr hturns (placeOf_dst hw.2.1 hw.2.2.1) (.inr (.inr (.inl hw)))]
  simp [serveRead, State.isBusy, State.withTurns, State.respond, he]

theorem step_write_src_idle {v : Word} (hr : s.rst = false) (hi : s.eng = .idle)
    (hturns : s.turns = .write a n v :: rest) (hw : windowAccess 0x100000 s.srcCap a n) :
    step s = .next { s with
      turns := rest, resp := some .written, src := s.src.store (a - 0x100000) (bytesOf n v) } := by
  rw [step_write_served hr hturns (placeOf_src hw.2.1 hw.2.2.1) (.inr (.inl hw)), serveWrite,
    unlessBusy_idle (by exact hi)]
  rfl

theorem step_write_dst_idle {v : Word} (hr : s.rst = false) (hi : s.eng = .idle)
    (hturns : s.turns = .write a n v :: rest) (hw : windowAccess 0x200000 s.dstCap a n) :
    step s = .next { s with
      turns := rest, resp := some .written, dst := s.dst.store (a - 0x200000) (bytesOf n v) } := by
  rw [step_write_served hr hturns (placeOf_dst hw.2.1 hw.2.2.1) (.inr (.inr (.inl hw))), serveWrite,
    unlessBusy_idle (by exact hi)]
  rfl

end

/-- Settles O40: a write stores the bytes of its value at the window's offset, and a read loads them. -/
theorem windowAccessesAreLittleEndian : Obligations.WindowAccessesAreLittleEndian := by
  intro s a n rest hr hi
  refine ⟨fun v hturns hw => ?_, fun v hturns hw => ?_, fun hturns hw => ?_, fun hturns hw => ?_⟩
  · exact ⟨_, step_write_src_idle hr hi hturns hw, fun k hk => s.src.read_store_bytesOf _ n v hk,
      fun j hj => s.src.read_store_outside _ (by simpa using hj)⟩
  · exact ⟨_, step_write_dst_idle hr hi hturns hw, fun k hk => s.dst.read_store_bytesOf _ n v hk,
      fun j hj => s.dst.read_store_outside _ (by simpa using hj)⟩
  · exact ⟨_, step_read_src hr hturns hw, s.src.toNat_windowWord_load _ hw.1.1⟩
  · exact ⟨_, step_read_dst_idle hr hi hturns hw, s.dst.toNat_windowWord_load _ hw.1.1⟩

/-! ### Reads while Busy (R152, R197) -/

/-- Where BUSY, DONE and ERR stand in the STATUS word: no field reaches into another. -/
theorem status_fields : ∀ (busy done wbusy : Bool) (code : Fin 16),
    let word := BitVec.ofNat 32 (busy.toNat + 2 * done.toNat + 16 * code + 256 * wbusy.toNat)
    word.getLsbD 0 = busy ∧ word.getLsbD 1 = done ∧ word.extractLsb' 4 4 = BitVec.ofNat 4 code := by
  decide

theorem State.statusWord_fields (s : State) :
    s.statusWord.getLsbD 0 = s.isBusy ∧ s.statusWord.getLsbD 1 = s.done ∧
      s.statusWord.extractLsb' 4 4 = BitVec.ofNat 4 s.errCode :=
  status_fields s.isBusy s.done s.wbusy ⟨s.errCode, s.errCode_lt⟩

/-- Settles O34: STATUS and DST_LEN read what the latch's agreement says of them, SRC its bytes, DST the bytes drawn. -/
theorem readsWhileBusy : Obligations.ReadsWhileBusy := by
  intro s l a n rest hr hl hagrees hturns
  obtain ⟨-, hdone, herr, hlen⟩ := hagrees l hl
  refine ⟨?_, ?_, fun hw => ?_, fun hw => ?_⟩
  · rintro ⟨rfl, rfl⟩
    obtain ⟨hbusy, hdone', hcode⟩ := s.statusWord_fields
    refine ⟨s.statusWord, step_read_register hr hturns (.inl (by decide)), ?_, hdone'.trans hdone, ?_⟩
    · rw [hbusy, State.isBusy, show s.eng = .busy l from hl]
    · rw [hcode, State.errCode, herr]
  · rintro ⟨rfl, rfl⟩
    rw [step_read_register hr hturns (.inl (by decide)), ← hlen]
    rfl
  · exact ⟨_, step_read_src hr hturns hw, s.src.toNat_windowWord_load _ hw.1.1⟩
  · exact ⟨_, step_read_dst_running hr hl hturns hw, toNat_windowWord_drawBytes _ _ hw.1.1⟩

end Sys2Proof.Machine
end

section
/-! PROOFS. The command word: encoding and decoding are inverse, the decoder accepts the legal words alone, and each row
of the opcode table covers the words of its own command (30_encoding.md). -/

namespace Sys2Proof

/-! ### What a command says of its fields (R70, R71, R73) -/

theorem Instr.wf_iff {i : Instr} : i.wf = true ↔ i.depth < 256 := by simp [Instr.wf]

theorem depthField_lt (w : Word) : depthField w < 256 := (w.extractLsb' 8 8).isLt

/-- Only RESIZE has SHRINK = 1 (R73). -/
theorem Instr.opcode_of_shrink {i : Instr} (h : i.shrink = true) : i.opcode = 5 := by
  cases i with
  | resize d s => rfl
  | unpack | pack | upscale | downscale24 | flip => cases h

theorem Instr.opcode_range (i : Instr) : 1 ≤ i.opcode ∧ i.opcode ≤ 6 := by cases i <;> simp [Instr.opcode]

/-- Three field values are those of a command exactly when the opcode is one of the six and SHRINK is 0 outside RESIZE
(R71, R73, R75). -/
theorem exists_instr_iff (op d : Nat) (s : Bool) :
    (∃ i : Instr, op = i.opcode ∧ d = i.depth ∧ s = i.shrink) ↔ (1 ≤ op ∧ op ≤ 6) ∧ (s = true → op = 5) := by
  constructor
  · rintro ⟨i, rfl, rfl, rfl⟩
    exact ⟨i.opcode_range, Instr.opcode_of_shrink⟩
  · rintro ⟨⟨hlo, hhi⟩, hs⟩
    cases s with
    | true => exact ⟨.resize d true, hs rfl, rfl, rfl⟩
    | false =>
      match op, hlo, hhi with
      | 1, _, _ => exact ⟨.unpack d, rfl, rfl, rfl⟩
      | 2, _, _ => exact ⟨.pack d, rfl, rfl, rfl⟩
      | 3, _, _ => exact ⟨.upscale d, rfl, rfl, rfl⟩
      | 4, _, _ => exact ⟨.downscale24 d, rfl, rfl, rfl⟩
      | 5, _, _ => exact ⟨.resize d false, rfl, rfl, rfl⟩
      | 6, _, _ => exact ⟨.flip d, rfl, rfl, rfl⟩

/-! ### Encoding and decoding -/

theorem toNat_encode {i : Instr} (h : i.wf = true) :
    (encode i).toNat = i.opcode + i.depth * 2 ^ 8 + i.shrink.toNat * 2 ^ 16 :=
  toNat_commandWord i.shrink i.opcode_lt (Instr.wf_iff.mp h)

/-- Settles O2: the encoding's fields are those an accepted word has. -/
theorem decodeOfEncodeIsTheCommand : Obligations.DecodeOfEncodeIsTheCommand := by
  intro i h
  obtain ⟨hop, hrsv0, hdepth, hshrink, hrsv1⟩ := Laws.EncodeFields.of_commandWord i h
  exact decode_eq_command.mpr ⟨hrsv0, hrsv1, hop, hdepth, hshrink⟩

/-- Settles O3: the word is the sum of its fields, and so is the encoding. -/
theorem encodeOfDecodedIsTheWord : Obligations.EncodeOfDecodedIsTheWord := by
  intro w i h
  obtain ⟨hrsv0, hrsv1, hop, hdepth, hshrink⟩ := decode_eq_command.mp h
  have hwf : i.wf = true := Instr.wf_iff.mpr (hdepth ▸ depthField_lt w)
  refine ⟨BitVec.eq_of_toNat_eq ?_, hwf⟩
  rw [toNat_encode hwf, toNat_eq_fields w, hrsv0, hrsv1, hop, hdepth, hshrink]
  omega

/-! ### The legal words (R75) -/

/-- `Legal` as a condition on the fields. -/
theorem legalWord_iff_fields (w : Word) :
    Machine.legalWord w ↔ rsv0Field w = 0 ∧ rsv1Field w = 0 ∧ (1 ≤ opField w ∧ opField w ≤ 6) ∧
      (shrinkField w = true → opField w = 5) := by
  rw [opField_eq, rsv0Field_eq, rsv1Field_eq, shrinkField_eq, beq_iff_eq]
  omega

/-- Settles O4: with the reserved bits 0, a word has the fields of a command exactly when it is legal. -/
theorem decoderAcceptsExactlyLegalWords : Obligations.DecoderAcceptsExactlyLegalWords := by
  intro w
  simp only [decode_eq_command, exists_and_left, exists_instr_iff, legalWord_iff_fields]

/-! ### The opcode table's rows (R78) -/

/-- No mask of the table looks at bits [15:8], those of DEPTH (R70). -/
theorem depthBits_and_mask : ∀ r ∈ opcodeRows, 0xFF00#32 &&& r.mask = 0#32 := by decide

/-- A DEPTH shifted to its place lies within bits [15:8]. -/
theorem depth_and_depthBits {d : Nat} (hd : d < 256) :
    BitVec.ofNat 32 (d <<< 8) &&& 0xFF00#32 = BitVec.ofNat 32 (d <<< 8) := by
  have hbits : d <<< 8 &&& 255 <<< 8 = d <<< 8 := by
    rw [← Nat.shiftLeft_and_distrib, Nat.and_two_pow_sub_one_of_lt_two_pow (n := 8) hd]
  exact (BitVec.ofNat_and ..).symm.trans (congrArg (BitVec.ofNat 32) hbits)

theorem depth_and_mask {r : OpcodeRow} (hr : r ∈ opcodeRows) {d : Nat} (hd : d < 256) :
    BitVec.ofNat 32 (d <<< 8) &&& r.mask = 0#32 := by
  rw [← depth_and_depthBits hd, BitVec.and_assoc, depthBits_and_mask r hr, BitVec.and_zero]

theorem covers_commandWord_depth {r : OpcodeRow} (hr : r ∈ opcodeRows) {d : Nat} (hd : d < 256) (op : Nat) (s : Bool) :
    r.covers (commandWord op d s) = r.covers (commandWord op 0 s) := by
  simp [OpcodeRow.covers, commandWord, BitVec.ofNat_or, BitVec.and_or_distrib_right, depth_and_mask hr hd]

/-- With DEPTH out of the way few words are left: a row covers those of its own opcode, with SHRINK = 1 in RESIZE's
alone. -/
theorem covers_commandWord_zero : ∀ r ∈ opcodeRows, ∀ (op : Fin 16) (s : Bool), (s = true → op.val = 5) →
    (r.covers (commandWord op 0 s) = true ↔ r.opcode = op) := by
  decide

theorem covers_encode_iff {r : OpcodeRow} (hr : r ∈ opcodeRows) {i : Instr} (h : i.wf = true) :
    r.covers (encode i) = true ↔ r.opcode = i.opcode := by
  rw [encode, covers_commandWord_depth hr (Instr.wf_iff.mp h)]
  exact covers_commandWord_zero r hr ⟨i.opcode, i.opcode_lt⟩ i.shrink Instr.opcode_of_shrink

/-- Settles O5: the fields do not overlap, and no row looks at the DEPTH bits. -/
theorem encodingFollowsTheFieldLayout : Obligations.EncodingFollowsTheFieldLayout := fun _ h =>
  ⟨toNat_encode h, fun _ hr => covers_encode_iff hr h⟩

/-! ### Words written out -/

/-- Settles O1, by running the decoder on the thirteen words. -/
theorem wordsWrittenOutDecode : Obligations.WordsWrittenOutDecode := by
  unfold Obligations.WordsWrittenOutDecode
  decide

end Sys2Proof
end

section
/-! PROOFS. The bit packer: UNPACK and PACK deliver the samples at every depth and tail policy, each law undoes the other
(40_bitpack.md), and no command depends on an operand it does not read. -/

namespace Sys2Proof.Machine

/-! ### All depths at once

At depths 8 and 24 a group is one byte, so every stream is whole groups, and no byte is out of range. -/

theorem packedLength_eq (d : Depth) (policy : TailPolicy) (len : Nat) :
    packedLength d policy len = packedGroups (groupSize d) policy len := rfl

theorem packedLength_d24 (policy : TailPolicy) (len : Nat) : packedLength .d24 policy len = len := by
  cases policy <;> exact Nat.div_one len

theorem groupSize_pos (d : Depth) : 0 < groupSize d := by cases d <;> decide

theorem unpackedLength_eq (d : Depth) (len : Nat) : unpackedLength d len = groupSize d * len := by
  cases d with
  | d1 | d4 => rfl
  | d8 | d24 => exact (Nat.one_mul len).symm

/-- Only depths 1 and 4 have sample bytes out of range (R102). -/
theorem inRange_of_subByte {d : Depth} {samples : List Byte}
    (h : d = .d1 ∨ d = .d4 → ∀ t ∈ samples, t.toNat < 2 ^ d.bits) : ∀ t ∈ samples, t.toNat < 2 ^ d.bits := by
  cases d with
  | d1 => exact h (.inl rfl)
  | d4 => exact h (.inr rfl)
  | d8 | d24 => exact fun t _ => t.isLt.trans_le (by decide)

/-- Only depths 1 and 4 have partial groups (R102). -/
theorem wholeGroups_of_subByte {d : Depth} {len : Nat} (h : d = .d1 ∨ d = .d4 → len % groupSize d = 0) :
    len % groupSize d = 0 := by
  cases d with
  | d1 => exact h (.inl rfl)
  | d4 => exact h (.inr rfl)
  | d8 | d24 => exact Nat.mod_one len

theorem unpack_inRange (d : Depth) (bytes : List Byte) : ∀ t ∈ unpack d bytes, t.toNat < 2 ^ d.bits := by
  cases d with
  | d1 =>
    intro t ht
    obtain ⟨b, -, ht⟩ := List.mem_flatMap.mp ht
    exact bitSamples_lt b t ht
  | d4 =>
    intro t ht
    obtain ⟨b, -, ht⟩ := List.mem_flatMap.mp ht
    exact nibbleSamples_lt b t ht
  | d8 | d24 => exact fun t _ => t.isLt.trans_le (by decide)

theorem unpack_wholeGroups (d : Depth) (bytes : List Byte) : (unpack d bytes).length % groupSize d = 0 := by
  rw [length_unpack, unpackedLength_eq, Nat.mul_mod_right]

/-! ### The laws undo each other (R104, R105) -/

theorem pack_d24 (policy : TailPolicy) {samples : List Byte} (h : samples.length % 3 = 0) :
    pack .d24 policy samples = .ok samples := by
  rw [pack, brokenTriples_eq_false.mpr fun _ => h, if_neg Bool.false_ne_true]

/-- What PACK gives, at every depth: a stream in range packs to the bytes that unpack to the stream with its tail
settled. -/
theorem pack_of_settled {d : Depth} {policy : TailPolicy} {samples whole : List Byte}
    (hr : ∀ t ∈ samples, t.toNat < 2 ^ d.bits) (h3 : d = .d24 → samples.length % 3 = 0)
    (hw : settleTail (groupSize d) policy samples = .ok whole) :
    ∃ out, pack d policy samples = .ok out ∧ unpack d out = whole := by
  have he : policy = .error → samples.length % groupSize d = 0 := by
    rintro rfl
    by_contra hpart
    simp [settleTail, hpart] at hw
  obtain ⟨whole', hw', hlen, hlt⟩ := settleTail_eq_ok (groupSize_pos d) hr he
  obtain rfl : whole = whole' := Except.ok.inj (hw.symm.trans hw')
  cases d with
  | d1 => exact ⟨packBits whole, packGroups_of_settled hr hw, unpack_packBits hlen hlt⟩
  | d4 => exact ⟨packNibbles whole, packGroups_of_settled hr hw, unpack_packNibbles hlen hlt⟩
  | d8 => exact ⟨samples, rfl, Except.ok.inj ((settleTail_whole (Nat.mod_one _)).symm.trans hw)⟩
  | d24 =>
    exact ⟨samples, pack_d24 policy (h3 rfl), Except.ok.inj ((settleTail_whole (Nat.mod_one _)).symm.trans hw)⟩

/-- Under ERROR a partial group is no result (R102). -/
theorem packGroups_error_partial {bits g : Nat} {group : List Byte → List Byte} {samples : List Byte}
    (h : samples.length % g ≠ 0) : packGroups bits g group .error samples = .err .malformedBuffer := by
  unfold packGroups
  split
  · rfl
  · simp [settleTail, h]

theorem pack_error_partial {d : Depth} {samples : List Byte} (h : samples.length % groupSize d ≠ 0) :
    pack d .error samples = .err .malformedBuffer := by
  cases d with
  | d1 | d4 => exact packGroups_error_partial h
  | d8 | d24 => exact absurd (Nat.mod_one _) h

/-- Settles O45: an unpacked buffer is whole groups in range, so the tail policy has nothing to settle. -/
theorem packUndoesUnpack : Obligations.PackUndoesUnpack := by
  intro d policy bytes h3
  have hr := unpack_inRange d bytes
  have hg := unpack_wholeGroups d bytes
  cases d with
  | d1 => exact (packGroups_whole hr hg).trans (congrArg Result.ok (packBits_unpacked bytes))
  | d4 => exact (packGroups_whole hr hg).trans (congrArg Result.ok (packNibbles_unpacked bytes))
  | d8 => rfl
  | d24 => exact pack_d24 policy (h3 rfl)

/-- Settles O46: unpacking gives the stream with its tail settled, and the policy says what that is. -/
theorem unpackUndoesPackUpToTheTail : Obligations.UnpackUndoesPackUpToTheTail := by
  intro policy samples
  refine ⟨fun d hd hlt => ?_, fun d hd => ?_⟩
  · have h3 : d = .d24 → samples.length % 3 = 0 := by rintro rfl; simp at hd
    refine ⟨fun hwhole => pack_of_settled hlt h3 (settleTail_whole hwhole), fun hpart => ?_⟩
    cases policy with
    | error => exact pack_error_partial hpart
    | zeroPad | drop => exact pack_of_settled hlt h3 (by simp [settleTail, hpart])
  · have hsub : ¬(d = .d1 ∨ d = .d4) := by rcases hd with rfl | ⟨rfl, -⟩ <;> decide
    have h3 : d = .d24 → samples.length % 3 = 0 := by
      rintro rfl
      simpa using hd
    exact pack_of_settled (inRange_of_subByte fun h => absurd h hsub) h3
      (settleTail_whole (wholeGroups_of_subByte fun h => absurd h hsub))

/-! ### The samples delivered (R101, R103, R106) -/

/-- Sample `m` of the unpacked stream is sample `m` of the packed buffer, at every depth. -/
theorem streamAt_unpack {d : Depth} {stream packed : Nat → Byte} {bytes : List Byte}
    (hstream : ∀ k (h : k < (unpack d bytes).length), stream k = (unpack d bytes)[k])
    (hpacked : ∀ k (h : k < bytes.length), packed k = bytes[k]) {m : Nat} (hm : m < sampleCount d bytes.length) :
    streamAt d stream m = sampleAt d packed m := by
  by_cases hd : d = .d24
  · subst hd
    have hlt : 3 * m + 2 < bytes.length := by simp only [sampleCount] at hm; omega
    have hsame : ∀ k, k < bytes.length → stream k = packed k := fun k hk => (hstream k hk).trans (hpacked k hk).symm
    simp only [streamAt, sampleAt, hsame _ hlt, hsame (3 * m + 1) (by omega), hsame (3 * m) (by omega)]
  · obtain ⟨t, ht, hsample⟩ := sampleAt_eq_unpack hd hpacked hm
    obtain ⟨hlen, rfl⟩ := List.getElem?_eq_some_iff.mp ht
    rw [hsample, ← hstream m hlen]
    cases d with
    | d1 | d4 | d8 => rfl
    | d24 => exact absurd rfl hd

/-- UNPACK gives the unpacked source wherever the result fits DST (R103). -/
theorem unpackCommand_eq_ok {raw srcCap dstCap : Nat} {l : Latch} {src : List Byte} {d : Depth}
    (hc : common false false raw srcCap l = .ok d) (h3 : d = .d24 → src.length % 3 = 0)
    (hfit : (unpack d src).length ≤ dstCap) : unpackCommand raw srcCap dstCap l src = .ok (unpack d src) := by
  rw [unpackCommand, hc, afterCommon_ok, brokenTriples_eq_false.mpr h3, if_neg Bool.false_ne_true]
  exact fitting_eq_ok.mpr ⟨rfl, hfit⟩

/-- PACK gives the packed source wherever there is one and it fits DST (R106). -/
theorem packCommand_eq_ok {raw srcCap dstCap : Nat} {l : Latch} {src out : List Byte} {d : Depth}
    (hc : common false false raw srcCap l = .ok d) (hp : pack d l.ctrl.ptail src = .ok out)
    (hfit : out.length ≤ dstCap) : packCommand raw srcCap dstCap l src = .ok out := by
  rw [packCommand, hc, afterCommon_ok]
  exact fitting_eq_ok.mpr ⟨hp, hfit⟩

/-- Settles O14: the result is the unpacked source, and DST holds it. -/
theorem unpackDeliversTheSamples : Obligations.UnpackDeliversTheSamples := by
  intro s l raw d hready h3 hfit
  have ⟨hrun, _, hsrc⟩ := hready
  have hlen := State.length_source hsrc
  have hout : (unpack d (s.source l)).length = unpackedLength d l.srclen.toNat := by rw [length_unpack, hlen]
  have hok := unpackCommand_eq_ok (common_of_ready hready false false nofun nofun) (hlen.symm ▸ h3) (hout.trans_le hfit)
  obtain ⟨hexec, hcompleted⟩ := exec_of_ok (i := .unpack raw) hrun hok
  refine ⟨_, hexec, hout ▸ hcompleted, fun m hm => ?_⟩
  exact streamAt_unpack (s.read_completeOk _) (fun k hk => (State.getElem_source hsrc k hk).symm) (hlen.symm ▸ hm)

/-- A stream with zero bytes past its `len` bytes, as ZERO_PAD extends it (R102). -/
def padded (len : Nat) (byte : Nat → Byte) (k : Nat) : Byte := if k < len then byte k else 0#8

/-- Past its end a padded stream holds zero samples, each of one byte where whole triples are not padded. -/
theorem streamAt_padded {d : Depth} {len m : Nat} (byte : Nat → Byte) (h24 : d = .d24 → m < len / 3) :
    streamAt d (padded len byte) m = if m < streamCount d len then streamAt d byte m else [0] := by
  cases d with
  | d1 | d4 | d8 =>
    by_cases hm : m < len <;> simp [streamAt, streamCount, padded, hm]
  | d24 =>
    have hm := h24 rfl
    have h2 : 3 * m + 2 < len := by omega
    have h1 : 3 * m + 1 < len := by omega
    have h0 : 3 * m < len := by omega
    simp only [streamAt, streamCount, padded, hm, h2, h1, h0, if_true]

/-- A packable source packs to a buffer of the announced length, whose samples are those of the padded stream (R102). -/
theorem pack_of_packable {d : Depth} {policy : TailPolicy} {samples : List Byte} {byte : Nat → Byte}
    (hb : ∀ k (h : k < samples.length), byte k = samples[k]) (hp : packable d policy samples.length byte) :
    ∃ out, pack d policy samples = .ok out ∧ out.length = packedLength d policy samples.length ∧
      ∀ k (h : k < (unpack d out).length), padded samples.length byte k = (unpack d out)[k] := by
  obtain ⟨hsub, h3⟩ := hp
  have hr : ∀ t ∈ samples, t.toNat < 2 ^ d.bits := inRange_of_subByte fun hd t ht => by
    obtain ⟨k, hk, rfl⟩ := List.mem_iff_getElem.mp ht
    rw [← hb k hk]
    exact (hsub hd).1 k hk
  have he : policy = .error → samples.length % groupSize d = 0 := fun herr =>
    wholeGroups_of_subByte fun hd => (hsub hd).2 herr
  obtain ⟨whole, hw, -, -⟩ := settleTail_eq_ok (groupSize_pos d) hr he
  obtain ⟨out, hout, rfl⟩ := pack_of_settled hr h3 hw
  refine ⟨out, hout, ?_, fun k hk => ?_⟩
  · rw [packedLength_eq, ← length_settleTail (groupSize_pos d) hw, length_unpack, unpackedLength_eq,
      Nat.mul_div_cancel_left _ (groupSize_pos d)]
  · rw [getElem_settleTail hw k hk, padded]
    split
    · exact hb k ‹_›
    · rfl

/-- Settles O15: DST holds the packed source, which unpacks to the padded stream. -/
theorem packDeliversTheSamples : Obligations.PackDeliversTheSamples := by
  intro s l raw d hready hpackable hfit
  have ⟨hrun, _, hsrc⟩ := hready
  have hlen := State.length_source hsrc
  have hsource := fun k hk => (State.getElem_source hsrc k hk).symm
  rw [← hlen] at hpackable hfit ⊢
  obtain ⟨out, hpack, hout, hstream⟩ := pack_of_packable hsource hpackable
  rw [← hout] at hfit ⊢
  have hok := packCommand_eq_ok (common_of_ready hready false false nofun nofun) hpack hfit
  obtain ⟨hexec, hcompleted⟩ := exec_of_ok (i := .pack raw) hrun hok
  refine ⟨_, hexec, hcompleted, fun m hm => ?_⟩
  rw [← streamAt_unpack hstream (s.read_completeOk out) hm]
  refine streamAt_padded _ ?_
  rintro rfl
  rwa [hout, packedLength_d24] at hm

/-! ### The operands a command does not read (R103, R106, R121, R128, R145, R158) -/

/-- A completion leaves the engine Idle, whatever latch it held. -/
theorem State.complete_withEngine (s : State) (e : Engine) (r : Result) :
    State.complete { s with eng := e } r = s.complete r := by cases r <;> rfl

/-- The common checks of a command that does not scale read no operand but SRC_LEN (R154). -/
theorem common_congr {needs24 : Bool} {raw srcCap : Nat} {l l' : Latch} (hlen : l'.srclen = l.srclen) :
    common needs24 false raw srcCap l' = common needs24 false raw srcCap l := by
  simp [common, Latch.sourceLength, hlen]

section
variable {raw srcCap dstCap : Nat} {l l' : Latch} {src : List Byte}

theorem unpackCommand_congr (hlen : l'.srclen = l.srclen) :
    unpackCommand raw srcCap dstCap l' src = unpackCommand raw srcCap dstCap l src := by
  rw [unpackCommand, unpackCommand, common_congr hlen]

theorem flipCommand_congr (hlen : l'.srclen = l.srclen) :
    flipCommand raw srcCap dstCap l' src = flipCommand raw srcCap dstCap l src := by
  rw [flipCommand, flipCommand, common_congr hlen]

theorem packCommand_congr (hlen : l'.srclen = l.srclen) (hptail : l'.ctrl.ptail = l.ctrl.ptail) :
    packCommand raw srcCap dstCap l' src = packCommand raw srcCap dstCap l src := by
  rw [packCommand, packCommand, common_congr hlen, hptail]

end

/-- A command completes alike with two latches of one source length for which its function gives the same. -/
theorem exec_withLatch {s : State} {l l' : Latch} {i : Instr} (hl : s.Running l) (hlen : l'.srclen = l.srclen)
    (hres : ∀ srcCap dstCap src, commandOf i srcCap dstCap l' src = commandOf i srcCap dstCap l src) :
    exec i { s with eng := .busy l' } = exec i s := by
  have hl' : State.Running { s with eng := .busy l' } l' := rfl
  have hsource : State.source { s with eng := .busy l' } l' = s.source l := by
    rw [State.source, State.source, Latch.sourceLength, hlen]
    rfl
  rw [exec_running hl, exec_running hl', hsource, hres, State.complete_withEngine]
  rfl

/-- Settles O28: UNPACK, PACK and FLIP do not scale, so their checks skip FACTOR; no other ignored operand occurs in
what a command computes. -/
theorem commandsIgnoreOperandsTheyDoNotRead : Obligations.CommandsIgnoreOperandsTheyDoNotRead := by
  intro s l raw factor width rnd ptail hl
  refine ⟨fun i hi => ?_, ?_, fun i hi => ?_, fun i hi => ?_⟩
  · obtain rfl | rfl := hi
    · exact exec_withLatch hl rfl fun _ _ _ => unpackCommand_congr rfl
    · exact exec_withLatch hl rfl fun _ _ _ => flipCommand_congr rfl
  · exact exec_withLatch hl rfl fun _ _ _ => packCommand_congr rfl rfl
  · obtain rfl | rfl := hi <;> exact exec_withLatch hl rfl fun _ _ _ => rfl
  · obtain rfl | rfl := hi <;> exact exec_withLatch hl rfl fun _ _ _ => rfl

end Sys2Proof.Machine
end

section
/-! PROOFS. The resampler (41_resample.md): what the three rounding policies give, which samples and block means UPSCALE,
DOWNSCALE24 and RESIZE deliver, and that shrinking undoes growth in both axes. -/

namespace Sys2Proof.Machine

/-! ### Rounding (R126, R127) -/

theorem roundMean_truncate_spec (s : Nat) {m : Nat} (hm : 1 ≤ m) :
    roundMean .truncate s m * m ≤ s ∧ s < (roundMean .truncate s m + 1) * m :=
  ⟨Nat.div_mul_le_self s m, by rw [Nat.mul_comm]; exact Nat.lt_mul_div_succ s hm⟩

theorem roundMean_halfUp_spec (s : Nat) {m : Nat} (hm : 1 ≤ m) :
    2 * roundMean .halfUp s m * m ≤ 2 * s + m ∧ 2 * s + m < 2 * (roundMean .halfUp s m + 1) * m := by
  have hs := Nat.div_add_mod' s m
  have hr := Nat.mod_lt s hm
  simp only [roundMean, Nat.mul_assoc 2]
  generalize s / m = q at hs
  split
  · simp only [Nat.succ_mul]; omega
  · simp only [Nat.succ_mul, Nat.add_zero]; omega

/-- Rounding up at a half happens only from an odd floor, and rounding down at a half only from an even one. -/
theorem roundMean_halfEven_spec (s : Nat) {m : Nat} (hm : 1 ≤ m) :
    2 * roundMean .halfEven s m * m ≤ 2 * s + m ∧ 2 * s ≤ 2 * roundMean .halfEven s m * m + m ∧
      (2 * roundMean .halfEven s m * m = 2 * s + m ∨ 2 * s = 2 * roundMean .halfEven s m * m + m →
        roundMean .halfEven s m % 2 = 0) := by
  have hs := Nat.div_add_mod' s m
  have hr := Nat.mod_lt s hm
  simp only [roundMean, Nat.mul_assoc 2]
  generalize s / m = q at hs
  split
  · simp only [Nat.succ_mul]; omega
  · simp only [Nat.add_zero]; omega

/-- "The rounded mean is at most 255", so Clamp changes nothing (R127). -/
theorem clampByte_roundMean (policy : Rounding) {s m : Nat} (hm : 1 ≤ m) (h : s ≤ 255 * m) :
    clampByte (roundMean policy s m) = roundMean policy s m := by
  rw [clampByte, Nat.max_zero, Nat.min_eq_left (roundMean_le policy hm h)]

/-- The mean of equal values is the value, under every policy. -/
theorem roundMean_mul_self (policy : Rounding) (v : Nat) {m : Nat} (hm : 1 ≤ m) : roundMean policy (m * v) m = v := by
  obtain ⟨-, -, hexact⟩ := roundMean_bounds policy (m * v) m hm
  rw [hexact (Nat.mul_mod_right m v), Nat.mul_div_cancel_left v hm]

/-- Settles O48: each policy rounds the quotient and remainder of `s` by `m` as it says, and a mean of bytes is a byte. -/
theorem roundingIsByThePolicy : Obligations.RoundingIsByThePolicy := fun s _ hm =>
  ⟨roundMean_truncate_spec s hm, roundMean_halfUp_spec s hm, roundMean_halfEven_spec s hm,
    fun hle policy => clampByte_roundMean policy hm hle⟩

/-! ### UPSCALE: samples repeated (R120 to R122) -/

theorem sampleCount_mul {d : Depth} (n : Nat) {len : Nat} (h3 : d = .d24 → len % 3 = 0) :
    sampleCount d (n * len) = n * sampleCount d len := by
  cases d with
  | d1 | d4 => exact Nat.mul_left_comm _ n len
  | d8 => rfl
  | d24 => exact Nat.mul_div_assoc n (Nat.dvd_of_mod_eq_zero (h3 rfl))

theorem length_unpack_mul {d : Depth} {n : Nat} {src out : List Byte} (h : out.length = n * src.length) :
    (unpack d out).length = n * (unpack d src).length := by
  rw [length_unpack, length_unpack, unpackedLength_eq, unpackedLength_eq, h, Nat.mul_left_comm]

/-- Settles O47: the result has `n` times the bytes of the source, and so `n` times the samples. -/
theorem upscaleMultipliesTheSampleCount : Obligations.UpscaleMultipliesTheSampleCount := by
  intro raw srcCap dstCap l src out d hd hok
  obtain ⟨d', hd', hn, h3, -, hlen, -⟩ := length_of_upscale_ok hok
  obtain rfl : d = d' := Option.some.inj (hd.symm.trans hd')
  exact ⟨hn, by rw [hlen, sampleCount_mul _ h3], length_unpack_mul hlen⟩

/-- A list read as a buffer. -/
def byteOf (bytes : List Byte) (k : Nat) : Byte := bytes.getD k 0#8

theorem byteOf_eq_getElem (bytes : List Byte) (k : Nat) (h : k < bytes.length) : byteOf bytes k = bytes[k] := by
  simp [byteOf, h]

theorem byteOf_congr {bytes bytes' : List Byte} {j k : Nat} (h : bytes[j]? = bytes'[k]?) :
    byteOf bytes j = byteOf bytes' k := by
  rw [byteOf, byteOf, List.getD_eq_getElem?_getD, List.getD_eq_getElem?_getD, h]

/-- Sample `m` of the replicated stream is sample `m / n`, at every depth (R120). -/
theorem streamAt_repeatSamples {d : Depth} {n m : Nat} {samples : List Byte} (hn : 1 ≤ n)
    (h3 : d = .d24 → samples.length % 3 = 0) (hm : d = .d24 → m < n * (samples.length / 3)) :
    streamAt d (byteOf (repeatSamples d n samples)) m = streamAt d (byteOf samples) (m / n) := by
  cases d with
  | d1 | d4 | d8 =>
    have h := byteOf_congr (getElem?_flatMap_replicate hn samples m)
    simp only [streamAt, repeatSamples, h]
  | d24 =>
    have h : ∀ c < 3, byteOf (repeatTriples n samples) (3 * m + c) = byteOf samples (3 * (m / n) + c) :=
      fun c hc => byteOf_congr (getElem?_repeatTriples (h3 rfl) (hm rfl) hc)
    have h0 : byteOf (repeatTriples n samples) (3 * m) = byteOf samples (3 * (m / n)) := h 0 (by decide)
    simp only [streamAt, repeatSamples, h0, h 1 (by decide), h 2 (by decide)]

/-- UPSCALE gives a result wherever the grown source fits DST (R121). -/
theorem upscaleCommand_eq_ok {raw srcCap dstCap : Nat} {l : Latch} {src : List Byte} {d : Depth}
    (hc : common false true raw srcCap l = .ok d) (h3 : d = .d24 → src.length % 3 = 0)
    (hfit : l.factor.toNat * src.length ≤ dstCap) :
    ∃ out, upscaleCommand raw srcCap dstCap l src = .ok out ∧ out.length = l.factor.toNat * src.length ∧
      unpack d out = repeatSamples d l.factor.toNat (unpack d src) := by
  obtain ⟨out, hpack, hout⟩ := pack_repeated d l.factor.toNat src h3
  refine ⟨out, ?_, hout⟩
  rw [upscaleCommand, hc, afterCommon_ok, brokenTriples_eq_false.mpr h3, if_neg Bool.false_ne_true]
  exact (if_neg (Nat.not_lt.mpr hfit)).trans hpack

/-- A strategy's own common checks decide as RESIZE's did (R158). -/
theorem afterCommon_afterCommon (c : Except ErrorKind Depth) (law : Depth → Result) :
    (afterCommon c fun _ => afterCommon c law) = afterCommon c law := by
  cases c <;> rfl

theorem resizeCommand_false (raw : Nat) : resizeCommand raw false = upscaleCommand raw := by
  funext srcCap dstCap l src
  exact afterCommon_afterCommon (common false true raw srcCap l) _

theorem resizeCommand_true (raw : Nat) : resizeCommand raw true = downscaleCommand raw := by
  funext srcCap dstCap l src
  exact afterCommon_afterCommon (common true true raw srcCap l) _

/-- Where the result unpacks to the replicated source, its sample `m` is the source's sample `m / n` (R121). -/
theorem sampleAt_of_unpack_repeated {d : Depth} {n m : Nat} {src out : List Byte} {result source : Nat → Byte}
    (hn : 1 ≤ n) (h3 : d = .d24 → src.length % 3 = 0) (hlen : out.length = n * src.length)
    (hunpack : unpack d out = repeatSamples d n (unpack d src))
    (hresult : ∀ k (h : k < out.length), result k = out[k]) (hsource : ∀ k (h : k < src.length), source k = src[k])
    (hm : m < n * sampleCount d src.length) : sampleAt d result m = sampleAt d source (m / n) := by
  have hm' : m < sampleCount d out.length := by rwa [hlen, sampleCount_mul n h3]
  calc sampleAt d result m
      = streamAt d (byteOf (unpack d out)) m := (streamAt_unpack (byteOf_eq_getElem _) hresult hm').symm
    _ = streamAt d (byteOf (unpack d src)) (m / n) := by
      rw [hunpack]
      refine streamAt_repeatSamples hn ?_ ?_
      · rintro rfl
        exact h3 rfl
      · rintro rfl
        exact hm
    _ = sampleAt d source (m / n) :=
      streamAt_unpack (byteOf_eq_getElem _) hsource (Nat.div_lt_of_lt_mul hm)

/-- Settles O16: UPSCALE's function gives a result that unpacks to the replicated source, and RESIZE runs the same
function. -/
theorem upscaleDeliversEachSampleRepeated : Obligations.UpscaleDeliversEachSampleRepeated := by
  intro s l raw d i hready hi hn h3 hfit
  have ⟨hrun, _, hsrc⟩ := hready
  have hlen := State.length_source hsrc
  have hi : commandOf i = upscaleCommand raw := by
    obtain rfl | rfl := hi
    · rfl
    · exact resizeCommand_false raw
  rw [← hlen] at h3 hfit ⊢
  obtain ⟨out, hok, hout, hunpack⟩ :=
    upscaleCommand_eq_ok (common_of_ready hready false true nofun fun _ => Nat.ne_of_gt hn) h3 hfit
  obtain ⟨hexec, hcompleted⟩ := exec_of_ok (i := i) hrun (hi ▸ hok)
  refine ⟨_, hexec, hout ▸ hcompleted, fun m hm => ?_⟩
  exact sampleAt_of_unpack_repeated hn h3 hout hunpack (s.read_completeOk out)
    (fun k hk => (State.getElem_source hsrc k hk).symm) hm

/-! ### DOWNSCALE24: block means (R124 to R128) -/

/-- DOWNSCALE24 gives the shrunk raster wherever the raster fits its factor and the result fits DST (R128). -/
theorem downscaleCommand_eq_ok {raw srcCap dstCap : Nat} {l : Latch} {src : List Byte} {d : Depth}
    (hc : common true true raw srcCap l = .ok d) (hgeom : geometry src.length l.width.toNat l.factor.toNat)
    (hfit : src.length / (l.factor.toNat * l.factor.toNat) ≤ dstCap) :
    downscaleCommand raw srcCap dstCap l src = .ok (shrink l.ctrl.rnd src l.width.toNat l.factor.toNat) := by
  obtain ⟨-, -, hn, -⟩ := common_eq_ok.mp hc
  have hlen := geometry_length (Nat.pos_of_ne_zero (hn rfl)) hgeom
  rw [downscaleCommand, hc, afterCommon_ok, shrinkLaw]
  exact (if_pos (rasterFits_iff.mpr hgeom)).trans (if_neg (Nat.not_lt.mpr (hlen.trans_le hfit)))

theorem length_shrink_of_geometry {policy : Rounding} {src : List Byte} {w n : Nat} (hn : 1 ≤ n)
    (h : geometry src.length w n) : (shrink policy src w n).length = src.length / (n * n) := by
  rw [length_shrink, pixelCount, geometry_length hn h]

/-- Place `j` of block `i` is a place of the `a` blocks of `n`. -/
theorem block_index_lt {a n i j : Nat} (hi : i < a) (hj : j < n) : i * n + j < a * n :=
  calc i * n + j < i * n + n := Nat.add_lt_add_left hj _
    _ = (i + 1) * n := (Nat.succ_mul i n).symm
    _ ≤ a * n := Nat.mul_le_mul_right n hi

/-- A pixel of a block of a well-formed raster is a pixel of the raster (R124). -/
theorem geometry_pixel_lt {len w n x y dx dy c : Nat} (h : geometry len w n) (hx : x < w / n) (hy : y < len / 3 / w / n)
    (hdx : dx < n) (hdy : dy < n) (hc : c < 3) : 3 * ((y * n + dy) * w + (x * n + dx)) + c < len := by
  obtain ⟨h1, -, h3, h4, h5⟩ := h
  have hrow : y * n + dy < len / 3 / w := by
    simpa [Nat.div_mul_cancel (Nat.dvd_of_mod_eq_zero h5)] using block_index_lt hy hdy
  have hcol : x * n + dx < w := by
    simpa [Nat.div_mul_cancel (Nat.dvd_of_mod_eq_zero h3)] using block_index_lt hx hdx
  have hpixel : (y * n + dy) * w + (x * n + dx) < len / 3 := by
    simpa [Nat.div_mul_cancel (Nat.dvd_of_mod_eq_zero h4)] using block_index_lt hrow hcol
  omega

/-- A block sum of a well-formed raster, by a reader of its bytes. -/
theorem blockSum_eq_sum_byte {src : List Byte} {byte : Nat → Byte} {w n x y c : Nat}
    (hb : ∀ k (h : k < src.length), byte k = src[k]) (h : geometry src.length w n) (hx : x < w / n)
    (hy : y < src.length / 3 / w / n) (hc : c < 3) :
    blockSum src w n c x y =
      ∑ dy ∈ Finset.range n, ∑ dx ∈ Finset.range n, (byte (3 * ((y * n + dy) * w + (x * n + dx)) + c)).toNat := by
  rw [blockSum_eq_sum]
  refine Finset.sum_congr rfl fun dy hdy => Finset.sum_congr rfl fun dx hdx => ?_
  have hlt := geometry_pixel_lt h hx hy (Finset.mem_range.mp hdx) (Finset.mem_range.mp hdy) hc
  rw [channel, Nat.add_assoc _ (x * n) dx, List.getD_eq_getElem _ _ hlt, hb _ hlt]

/-- Settles O17: DST holds the shrunk raster, whose pixels are the rounded block sums, and a rounded mean of bytes fits
its byte. -/
theorem downscaleDeliversTheBlockMeans : Obligations.DownscaleDeliversTheBlockMeans := by
  intro s l i hready hi hn hgeom hfit
  have ⟨hrun, _, hsrc⟩ := hready
  have hi : commandOf i = downscaleCommand 24 := by
    obtain rfl | rfl := hi
    · rfl
    · exact resizeCommand_true 24
  rw [← State.length_source hsrc] at hgeom hfit ⊢
  have hok := downscaleCommand_eq_ok
    (common_of_ready hready true true (fun _ => rfl) fun _ => Nat.ne_of_gt hn) hgeom hfit
  obtain ⟨hexec, hcompleted⟩ := exec_of_ok (i := i) hrun (hi ▸ hok)
  refine ⟨_, hexec, length_shrink_of_geometry hn hgeom ▸ hcompleted, fun x y c hx hy hc => ?_⟩
  obtain ⟨hk, hpixel⟩ := List.getElem?_eq_some_iff.mp (getElem?_shrink l.ctrl.rnd (s.source l) hn hx hy hc)
  have hmean := roundMean_le l.ctrl.rnd (Nat.mul_pos hn hn) (blockSum_le (s.source l) l.width.toNat _ c x y)
  rw [s.read_completeOk _ _ hk, hpixel, BitVec.toNat_ofNat, Nat.mod_eq_of_lt (Nat.lt_succ_of_le hmean),
    blockSum_eq_sum_byte (fun k hk => (State.getElem_source hsrc k hk).symm) hgeom hx hy hc]

/-! ### Growth in both axes and back (R129) -/

/-- The `g` bytes from index `i` on. -/
def slice (bytes : List Byte) (i g : Nat) : List Byte := (List.range g).map fun k => byteOf bytes (i + k)

@[simp] theorem length_slice (bytes : List Byte) (i g : Nat) : (slice bytes i g).length = g := by simp [slice]

theorem take_drop_eq_slice {bytes : List Byte} {i g : Nat} (h : i + g ≤ bytes.length) :
    (bytes.drop i).take g = slice bytes i g := by
  refine List.ext_getElem (by simp; omega) fun k hk _ => ?_
  have hk : i + k < bytes.length := by simp at hk; omega
  simp [slice, byteOf_eq_getElem _ _ hk]

/-- `h` rows of `g` bytes, each written `n` times in a row. -/
def repeatRows (g h n : Nat) (bytes : List Byte) : List Byte :=
  (List.range h).flatMap fun y => (List.replicate n (slice bytes (g * y) g)).flatten

theorem length_repeatedRow (g n y : Nat) (bytes : List Byte) :
    (List.replicate n (slice bytes (g * y) g)).flatten.length = g * n := by
  rw [length_flatten_replicate, length_slice]

theorem length_repeatRows (g h n : Nat) (bytes : List Byte) : (repeatRows g h n bytes).length = g * n * h := by
  rw [repeatRows, length_flatMap_blocks fun y => length_repeatedRow g n y bytes, List.length_range]

/-- Byte `k` of copy `j` of row `y` is byte `k` of row `y`. -/
theorem byteOf_repeatRows {g h n y j k : Nat} (bytes : List Byte) (hy : y < h) (hj : j < n) (hk : k < g) :
    byteOf (repeatRows g h n bytes) (g * n * y + (g * j + k)) = byteOf bytes (g * y + k) := by
  have hrow : g * j + k < g * n := by simpa only [Nat.mul_comm g] using block_index_lt hj hk
  have houter := getElem?_flatMap_blocks (fun y => length_repeatedRow g n y bytes) (List.range h) y hrow
  have hinner := getElem?_flatten_replicate (slice bytes (g * y) g) hj (k := k) (by rwa [length_slice])
  rw [length_slice] at hinner
  rw [byteOf, List.getD_eq_getElem?_getD, repeatRows, houter, List.getElem?_range hy, Option.bind_some, hinner]
  simp [slice, hk]

/-- A raster of `w × h` pixels, grown by `n` in both axes. -/
def growBoth (b : List Byte) (w h n : Nat) : List Byte := repeatRows (3 * (w * n)) h n (repeatTriples n b)

section
variable {b : List Byte} {w h n : Nat}

theorem length_growBoth : (growBoth b w h n).length = 3 * (w * n) * (h * n) := by
  rw [growBoth, length_repeatRows, Nat.mul_assoc _ n h, Nat.mul_comm n h]

/-- Each block of the grown raster holds copies of one pixel (R129). -/
theorem channel_growBoth {x y dx dy c : Nat} (hb : b.length = 3 * w * h) (hx : x < w) (hy : y < h) (hdx : dx < n)
    (hdy : dy < n) (hc : c < 3) :
    channel (growBoth b w h n) c ((y * n + dy) * (w * n) + x * n + dx) = channel b c (y * w + x) := by
  have hcol : x * n + dx < w * n := block_index_lt hx hdx
  have hpixels : b.length / 3 = h * w := by rw [hb, Nat.mul_assoc, Nat.mul_div_cancel_left _ (by decide), Nat.mul_comm]
  have hsource : (y * w + x) * n + dx < n * (b.length / 3) := by
    rw [hpixels, Nat.mul_comm n]
    exact block_index_lt (block_index_lt hy hx) hdx
  have hdiv : ((y * w + x) * n + dx) / n = y * w + x := by
    rw [Nat.mul_comm _ n, Nat.mul_add_div (Nat.zero_lt_of_lt hdx), Nat.div_eq_of_lt hdx, Nat.add_zero]
  have htriple := getElem?_repeatTriples (n := n) (by rw [hb, Nat.mul_assoc]; exact Nat.mul_mod_right 3 _) hsource hc
  have hrows := byteOf_repeatRows (g := 3 * (w * n)) (k := 3 * (x * n + dx) + c) (repeatTriples n b) hy hdy (by omega)
  rw [hdiv] at htriple
  refine congrArg BitVec.toNat (?_ : byteOf _ _ = byteOf _ _)
  calc byteOf (growBoth b w h n) (3 * ((y * n + dy) * (w * n) + x * n + dx) + c)
      = byteOf (repeatTriples n b) (3 * (w * n) * y + (3 * (x * n + dx) + c)) := by
        rw [← hrows, growBoth]
        congr 1
        ring
    _ = byteOf (repeatTriples n b) (3 * ((y * w + x) * n + dx) + c) := by congr 1; ring
    _ = byteOf b (3 * (y * w + x) + c) := byteOf_congr htriple

theorem blockSum_growBoth {x y c : Nat} (hb : b.length = 3 * w * h) (hx : x < w) (hy : y < h) (hc : c < 3) :
    blockSum (growBoth b w h n) (w * n) n c x y = n * n * channel b c (y * w + x) := by
  rw [blockSum_eq_sum]
  calc _ = ∑ _dy ∈ Finset.range n, ∑ _dx ∈ Finset.range n, channel b c (y * w + x) :=
        Finset.sum_congr rfl fun dy hdy => Finset.sum_congr rfl fun dx hdx =>
          channel_growBoth hb hx hy (Finset.mem_range.mp hdx) (Finset.mem_range.mp hdy) hc
    _ = n * n * channel b c (y * w + x) := by simp [Nat.mul_assoc]

/-- The rows of the replicated raster, each written `n` times, are the raster grown in both axes. -/
theorem flatMap_rows_eq_growBoth (hb : b.length = 3 * w * h) :
    ((List.range h).flatMap fun y =>
      (List.replicate n (((repeatTriples n b).drop (3 * (w * n) * y)).take (3 * (w * n)))).flatten) =
        growBoth b w h n := by
  refine List.flatMap_congr fun y hy => ?_
  have hrow : 3 * (w * n) * y + 3 * (w * n) ≤ (repeatTriples n b).length :=
    calc 3 * (w * n) * y + 3 * (w * n) = 3 * (w * n) * (y + 1) := (Nat.mul_succ _ y).symm
      _ ≤ 3 * (w * n) * h := Nat.mul_le_mul_left _ (List.mem_range.mp hy)
      _ = (repeatTriples n b).length := by
        rw [length_repeatTriples (by rw [hb, Nat.mul_assoc, Nat.mul_mod_right]), hb]
        ring
  rw [take_drop_eq_slice hrow]

variable (hw : 1 ≤ w) (hn : 1 ≤ n)
include hw hn

theorem rows_growBoth : (growBoth b w h n).length / 3 / (w * n) = h * n := by
  rw [length_growBoth, Nat.mul_assoc, Nat.mul_div_cancel_left _ (by decide),
    Nat.mul_div_cancel_left _ (Nat.mul_pos hw hn)]

theorem geometry_growBoth : geometry (growBoth b w h n).length (w * n) n := by
  refine ⟨?_, Nat.mul_pos hw hn, Nat.mul_mod_left w n, ?_, ?_⟩
  · rw [length_growBoth, Nat.mul_assoc, Nat.mul_mod_right]
  · rw [length_growBoth, Nat.mul_assoc, Nat.mul_div_cancel_left _ (by decide), Nat.mul_mod_right]
  · rw [rows_growBoth hw hn, Nat.mul_mod_left]

/-- "Every block holds `n²` copies of one pixel", whose mean is that pixel under every policy (R129). -/
theorem shrink_growBoth (policy : Rounding) (hb : b.length = 3 * w * h) :
    shrink policy (growBoth b w h n) (w * n) n = b := by
  have hcols : w * n / n = w := Nat.mul_div_cancel w hn
  have hrows : pixelCount (growBoth b w h n) / (w * n) / n = h := by
    rw [pixelCount, rows_growBoth hw hn, Nat.mul_div_cancel h hn]
  refine List.ext_getElem (by rw [length_shrink, hcols, hrows, hb]) fun k hk hkb => ?_
  have hx : k / 3 % w < w := Nat.mod_lt _ hw
  have hy : k / 3 / w < h := Nat.div_lt_of_lt_mul (Nat.div_lt_of_lt_mul (by rw [← Nat.mul_assoc, ← hb]; exact hkb))
  have hc : k % 3 < 3 := Nat.mod_lt k (by decide)
  have hk3 : 3 * (k / 3 / w * w + k / 3 % w) + k % 3 = k := by rw [Nat.div_add_mod', Nat.div_add_mod]
  have hpixel := getElem?_shrink policy (growBoth b w h n) hn (hcols.symm ▸ hx) (hrows.symm ▸ hy) hc
  rw [hcols, blockSum_growBoth hb hx hy hc, roundMean_mul_self _ _ (Nat.mul_pos hn hn), channel, hk3,
    List.getD_eq_getElem _ _ hkb, BitVec.ofNat_toNat, BitVec.setWidth_eq] at hpixel
  exact (List.getElem?_eq_some_iff.mp hpixel).2

end

/-- Settles O49: the raster grown in both axes meets the geometry, and shrinking it gives the source, which is no longer
than the grown rows that fit DST. -/
theorem shrinkUndoesTwoDimensionalGrowth : Obligations.ShrinkUndoesTwoDimensionalGrowth := by
  rintro b grown w h n srcCap dstCap l l' hw hn hb hln hok rfl hw' hsrc tall rfl
  obtain ⟨d, hd, -, -, hfit, -, hgrown⟩ := length_of_upscale_ok hok
  obtain rfl : Depth.d24 = d := Option.some.inj hd
  obtain rfl : grown = repeatTriples l'.factor.toNat b := hln ▸ hgrown
  rw [hln] at hfit
  rw [flatMap_rows_eq_growBoth hb]
  refine ⟨length_growBoth, ?_⟩
  have hgeom := geometry_growBoth (b := b) (h := h) hw hn
  have hshrink := shrink_growBoth hw hn l'.ctrl.rnd hb
  have hlen := length_shrink_of_geometry (policy := l'.ctrl.rnd) hn hgeom
  have hle : b.length ≤ l'.factor.toNat * b.length := Nat.le_mul_of_pos_left _ hn
  have hc : common true true 24 srcCap l' = .ok .d24 :=
    common_eq_ok.mpr ⟨rfl, fun _ => rfl, fun _ => Nat.ne_of_gt hn, hsrc⟩
  rw [← hw'] at hgeom
  rw [hshrink] at hlen
  rw [downscaleCommand_eq_ok hc hgeom (hlen ▸ hle.trans hfit), hw', hshrink]

end Sys2Proof.Machine
end

section
/-! PROOFS. The flipper (42_flip.md): FLIP reverses the samples at every depth, undoes itself, and delivers the reversed
samples in DST. -/

namespace Sys2Proof.Machine

/-! ### The samples reversed (R140, R141) -/

/-- A transform that reverses the samples `f` of every byte makes of the reversed buffer the reversed samples. -/
theorem flatMap_map_reverse {f : Byte → List Byte} {transform : Byte → Byte}
    (h : ∀ b, f (transform b) = (f b).reverse) (bytes : List Byte) :
    (bytes.reverse.map transform).flatMap f = (bytes.flatMap f).reverse := by
  rw [List.flatMap_map, List.reverse_flatMap]
  exact List.flatMap_congr fun b _ => h b

theorem unpack_flipBytes {d : Depth} (hd : d ≠ .d24) (bytes : List Byte) :
    unpack d (flipBytes d bytes) = (unpack d bytes).reverse := by
  cases d with
  | d1 => exact flatMap_map_reverse bitSamples_bitrev bytes
  | d4 => exact flatMap_map_reverse nibbleSamples_swapnib bytes
  | d8 => rfl
  | d24 => exact absurd rfl hd

/-- At depth 24 the reversal of the bytes and the swap inside each triple leave byte `c` of a triple its byte `c`. -/
theorem getElem?_flipBytes_d24 {bytes : List Byte} (h3 : bytes.length % 3 = 0) {t c : Nat}
    (ht : t < bytes.length / 3) (hc : c < 3) :
    (flipBytes .d24 bytes)[3 * t + c]? = bytes[3 * (bytes.length / 3 - 1 - t) + c]? := by
  have hswap := getElem?_swapTriplets (bytes := bytes.reverse) (by simpa using h3) (by simpa using ht) hc
  rw [flipBytes, hswap, List.getElem?_reverse (by omega)]
  congr 1
  omega

/-- Settles O50: below depth 24 each byte's samples are reversed with the bytes, and at depth 24 the triples are. -/
theorem flipReversesTheUnpackedSamples : Obligations.FlipReversesTheUnpackedSamples := by
  intro bytes
  refine ⟨fun d hd => unpack_flipBytes ?_ bytes, fun h3 => ⟨length_flip fun _ => h3, fun t c ht hc => ?_⟩⟩
  · rintro rfl
    simp at hd
  · exact getElem?_flipBytes_d24 h3 ht hc

/-! ### FLIP undoes itself (R142) -/

/-- Reversing twice with an involution on the bytes gives the buffer back. -/
theorem map_reverse_map_reverse {transform : Byte → Byte} (h : Function.Involutive transform) (bytes : List Byte) :
    (bytes.reverse.map transform).reverse.map transform = bytes := by
  rw [← List.map_reverse, List.reverse_reverse, List.map_map, h.comp_self, List.map_id]

/-- Triple `t` goes to place `count-1-t`, and from there back to place `t`. -/
theorem flipBytes_flipBytes_d24 {bytes : List Byte} (h3 : bytes.length % 3 = 0) :
    flipBytes .d24 (flipBytes .d24 bytes) = bytes := by
  have hlen : (flipBytes .d24 bytes).length = bytes.length := length_flip fun _ => h3
  have hlen2 : (flipBytes .d24 (flipBytes .d24 bytes)).length = bytes.length :=
    (length_flip fun _ => hlen.symm ▸ h3).trans hlen
  refine List.ext_getElem hlen2 fun k hk2 hk => (List.getElem_eq_iff hk2).mpr ?_
  have ht : k / 3 < bytes.length / 3 := by omega
  have hc : k % 3 < 3 := Nat.mod_lt k (by decide)
  calc (flipBytes .d24 (flipBytes .d24 bytes))[k]?
      = (flipBytes .d24 (flipBytes .d24 bytes))[3 * (k / 3) + k % 3]? := by rw [Nat.div_add_mod]
    _ = (flipBytes .d24 bytes)[3 * (bytes.length / 3 - 1 - k / 3) + k % 3]? := by
      rw [getElem?_flipBytes_d24 (hlen.symm ▸ h3) (hlen.symm ▸ ht) hc, hlen]
    _ = bytes[3 * (bytes.length / 3 - 1 - (bytes.length / 3 - 1 - k / 3)) + k % 3]? :=
      getElem?_flipBytes_d24 h3 (by omega) hc
    _ = bytes[k]? := by congr 1; omega
    _ = some bytes[k] := List.getElem?_eq_getElem hk

/-- Settles O51: the transform inside a unit is an involution at every depth, and so is the reversal. -/
theorem flipIsAnInvolution : Obligations.FlipIsAnInvolution := by
  intro d bytes h3
  cases d with
  | d1 => exact map_reverse_map_reverse bitrev_bitrev bytes
  | d4 => exact map_reverse_map_reverse swapnib_swapnib bytes
  | d8 => exact List.reverse_reverse bytes
  | d24 => exact flipBytes_flipBytes_d24 (h3 rfl)

/-! ### The samples delivered (R140, R145) -/

/-- Below depth 24 the unpacked buffer has one element for each sample. -/
theorem getElem?_unpack_flipBytes {d : Depth} (hd : d ≠ .d24) {bytes : List Byte} {m : Nat}
    (hm : m < sampleCount d bytes.length) :
    (unpack d (flipBytes d bytes))[m]? = (unpack d bytes)[sampleCount d bytes.length - 1 - m]? := by
  have hlen : (unpack d bytes).length = sampleCount d bytes.length := by
    rw [length_unpack]
    cases d with
    | d1 | d4 | d8 => rfl
    | d24 => exact absurd rfl hd
  rw [unpack_flipBytes hd, List.getElem?_reverse (hlen.symm ▸ hm), hlen]

/-- Sample `m` of the flipped stream is sample `count-1-m`, at every depth. -/
theorem streamAt_unpack_flipBytes {d : Depth} {bytes : List Byte} (h3 : d = .d24 → bytes.length % 3 = 0) {m : Nat}
    (hm : m < sampleCount d bytes.length) :
    streamAt d (byteOf (unpack d (flipBytes d bytes))) m =
      streamAt d (byteOf (unpack d bytes)) (sampleCount d bytes.length - 1 - m) := by
  cases d with
  | d1 | d4 | d8 =>
    have h := byteOf_congr (getElem?_unpack_flipBytes (by decide) hm)
    simp only [streamAt, h]
  | d24 =>
    have h : ∀ c < 3, byteOf (flipBytes .d24 bytes) (3 * m + c) =
        byteOf bytes (3 * (sampleCount .d24 bytes.length - 1 - m) + c) :=
      fun c hc => byteOf_congr (getElem?_flipBytes_d24 (h3 rfl) hm hc)
    have h0 : byteOf (flipBytes .d24 bytes) (3 * m) = byteOf bytes (3 * (sampleCount .d24 bytes.length - 1 - m)) :=
      h 0 (by decide)
    simp only [streamAt, unpack, h0, h 1 (by decide), h 2 (by decide)]

/-- A buffer that holds the flipped source has the source's samples in reverse order. -/
theorem sampleAt_flipBytes {d : Depth} {src : List Byte} {result source : Nat → Byte}
    (h3 : d = .d24 → src.length % 3 = 0)
    (hresult : ∀ k (h : k < (flipBytes d src).length), result k = (flipBytes d src)[k])
    (hsource : ∀ k (h : k < src.length), source k = src[k]) {m : Nat} (hm : m < sampleCount d src.length) :
    sampleAt d result m = sampleAt d source (sampleCount d src.length - 1 - m) :=
  calc sampleAt d result m
      = streamAt d (byteOf (unpack d (flipBytes d src))) m :=
        (streamAt_unpack (byteOf_eq_getElem _) hresult ((length_flip h3).symm ▸ hm)).symm
    _ = streamAt d (byteOf (unpack d src)) (sampleCount d src.length - 1 - m) := streamAt_unpack_flipBytes h3 hm
    _ = sampleAt d source (sampleCount d src.length - 1 - m) :=
        streamAt_unpack (byteOf_eq_getElem _) hsource (by omega)

/-- FLIP gives the flipped source wherever the source fits DST (R145). -/
theorem flipCommand_eq_ok {raw srcCap dstCap : Nat} {l : Latch} {src : List Byte} {d : Depth}
    (hc : common false false raw srcCap l = .ok d) (h3 : d = .d24 → src.length % 3 = 0)
    (hfit : src.length ≤ dstCap) : flipCommand raw srcCap dstCap l src = .ok (flipBytes d src) := by
  rw [flipCommand, hc, afterCommon_ok, brokenTriples_eq_false.mpr h3, if_neg Bool.false_ne_true]
  exact if_neg (Nat.not_lt.mpr hfit)

/-- Settles O18: the result is the flipped source, as long as the source, and DST holds it. -/
theorem flipDeliversTheSamplesReversed : Obligations.FlipDeliversTheSamplesReversed := by
  intro s l raw d hready h3 hfit
  have ⟨hrun, _, hsrc⟩ := hready
  rw [← State.length_source hsrc] at h3 hfit ⊢
  have hok := flipCommand_eq_ok (common_of_ready hready false false nofun nofun) h3 hfit
  obtain ⟨hexec, hcompleted⟩ := exec_of_ok (i := .flip raw) hrun hok
  refine ⟨_, hexec, length_flip h3 ▸ hcompleted, fun m hm => ?_⟩
  exact sampleAt_flipBytes h3 (s.read_completeOk _) (fun k hk => (State.getElem_source hsrc k hk).symm) hm

end Sys2Proof.Machine
end

section
/-! PROOFS. The life of a command (43_dispatch.md): the CMD write is accepted or dropped, RESIZE runs the strategy it
selects, and a Busy engine completes with the error of R180. -/

namespace Sys2Proof.Machine

/-! ### Acceptance and the strategies of RESIZE (R151, R158) -/

/-- A write of CMD is accepted, unless the block is Busy (R151, R196). -/
theorem step_write_cmd {s : State} {v : Word} {rest : List Turn} (hr : s.rst = false)
    (hturns : s.turns = .write 0x08 4 v :: rest) :
    step s = .next ((unlessBusy (s.withTurns rest) ((s.withTurns rest).accept v)).respond .written) :=
  step_write_served hr hturns (placeOf_page (by decide)) (.inl (by decide))

/-- Right after acceptance STATUS reads BUSY = 1, DONE = 0 and ERR = 0, whatever WBUSY is (R24, R151). -/
theorem State.statusWord_accept (s : State) (v : Word) :
    (s.accept v).statusWord.extractLsb' 0 8 = 0x01#8 := by
  have hword : (s.accept v).statusWord = BitVec.ofNat 32 (1 + 256 * s.wbusy.toNat) := rfl
  rw [hword]
  cases s.wbusy <;> decide

/-- Settles O8: the write is served, and the engine decides whether it is stored. -/
theorem cmdWriteIsAcceptedWhileIdle : Obligations.CmdWriteIsAcceptedWhileIdle := by
  intro s rest v hr hturns
  refine ⟨fun hi => ⟨_, step_write_cmd hr hturns, ?_⟩, fun l hl => ?_⟩
  · rw [unlessBusy_idle (s := s.withTurns rest) hi]
    exact ⟨rfl, (s.withTurns rest).statusWord_accept v⟩
  · rw [step_write_cmd hr hturns, unlessBusy_running (s := s.withTurns rest) hl]
    rfl

/-- Settles O19: RESIZE completes with the function of the strategy. -/
theorem resizeIsTheStrategyItSelects : Obligations.ResizeIsTheStrategyItSelects := fun s raw =>
  ⟨congrArg (completeCommand · s) (resizeCommand_false raw), congrArg (completeCommand · s) (resizeCommand_true raw)⟩

/-! ### The error after the common checks (R174, R176, R180) -/

/-- The part of R180 that is left to a command's law: the shape of the source, then the length of the result. -/
def lawError (op d : Nat) (shrinks : Bool) (dstCap : Nat) (l : Latch) (src : List Byte) : Option ErrorKind :=
  if ¬ shapeHolds op d shrinks l src then some .malformedBuffer
  else if dstCap < resultLength op d shrinks l src then some .bufferOverflow
  else none

section
variable {op dstCap : Nat} {shrinks : Bool} {d : Depth} {l : Latch} {src : List Byte}

theorem lawError_of_shape (h : shapeHolds op d.bits shrinks l src) : lawError op d.bits shrinks dstCap l src =
    if dstCap < resultLength op d.bits shrinks l src then some .bufferOverflow else none := if_neg (not_not_intro h)

theorem lawError_of_not_shape (h : ¬ shapeHolds op d.bits shrinks l src) :
    lawError op d.bits shrinks dstCap l src = some .malformedBuffer := if_pos h

/-- For every command but PACK and the shrinking ones the shape is that of whole triples (R174). -/
theorem shapeHolds_iff_triples (hpack : op ≠ 2) (hshrink : ¬ (op = 4 ∨ (op = 5 ∧ shrinks = true))) :
    shapeHolds op d.bits shrinks l src ↔ (d = .d24 → src.length % 3 = 0) := by
  cases d <;> simp [shapeHolds, hpack, hshrink, Depth.bits]

/-- A law that checks for whole triples first reports R180's error if what follows reports a result too long. -/
theorem error?_unlessBroken {r : Result} (hpack : op ≠ 2) (hshrink : ¬ (op = 4 ∨ (op = 5 ∧ shrinks = true)))
    (hr : (d = .d24 → src.length % 3 = 0) →
      r.error? = if dstCap < resultLength op d.bits shrinks l src then some .bufferOverflow else none) :
    (if brokenTriples d src then .err .malformedBuffer else r).error? = lawError op d.bits shrinks dstCap l src := by
  have hshape : shapeHolds op d.bits shrinks l src ↔ _ := shapeHolds_iff_triples hpack hshrink
  by_cases h3 : d = .d24 → src.length % 3 = 0
  · rw [brokenTriples_eq_false.mpr h3, if_neg Bool.false_ne_true, lawError_of_shape (hshape.mpr h3), hr h3]
  · have hbroken := Bool.eq_true_of_not_eq_false (mt brokenTriples_eq_false.mp h3)
    rw [if_pos hbroken, lawError_of_not_shape (mt hshape.mp h3)]
    rfl

/-- UNPACK's law (R103). -/
theorem error?_unpackLaw :
    (if brokenTriples d src then .err .malformedBuffer else fitting dstCap (.ok (unpack d src))).error? =
      lawError 1 d.bits false dstCap l src := by
  refine error?_unlessBroken (by decide) (by decide) fun _ => ?_
  have hlen : (unpack d src).length = resultLength 1 d.bits false l src := by
    rw [length_unpack]
    cases d <;> rfl
  rw [Result.error?_fitting_ok, hlen]

/-- UPSCALE's law, which RESIZE with SHRINK = 0 runs too (R121, R158). -/
theorem error?_upscaleLaw (hop : op = 3 ∨ op = 5) :
    (if brokenTriples d src then Result.err .malformedBuffer
      else if l.scale * src.length > dstCap then .err .bufferOverflow
      else pack d .error (repeatSamples d l.scale (unpack d src))).error? = lawError op d.bits false dstCap l src := by
  have hshrink : ¬ (op = 4 ∨ (op = 5 ∧ false = true)) := by obtain rfl | rfl := hop <;> decide
  refine error?_unlessBroken (by omega) hshrink fun h3 => ?_
  obtain ⟨out, hpack, -, -⟩ := pack_repeated d l.scale src h3
  have hlen : resultLength op d.bits false l src = l.scale * src.length := by
    obtain rfl | rfl := hop <;> rfl
  rw [hpack, hlen]
  split <;> rfl

/-- FLIP's law (R145). -/
theorem error?_flipLaw :
    (if brokenTriples d src then Result.err .malformedBuffer
      else if src.length > dstCap then .err .bufferOverflow
      else .ok (flipBytes d src)).error? = lawError 6 d.bits false dstCap l src := by
  refine error?_unlessBroken (by decide) (by decide) fun _ => ?_
  have hlen : resultLength 6 d.bits false l src = src.length := rfl
  rw [hlen]
  split <;> rfl

/-- PACK's shape is that of a stream that can be packed (R102, R174). -/
theorem shapeHolds_pack_iff : shapeHolds 2 d.bits false l src ↔
    (d = .d1 ∨ d = .d4 → (∀ t ∈ src, t.toNat < 2 ^ d.bits) ∧ (l.ctrl.ptail = .error → src.length % groupSize d = 0)) ∧
      (d = .d24 → src.length % 3 = 0) := by
  cases d <;> simp [shapeHolds, Depth.bits, groupSize]

/-- A sample out of range is no result (R102). -/
theorem pack_outOfRange {policy : TailPolicy} {t : Byte} (hd : d = .d1 ∨ d = .d4) (ht : t ∈ src)
    (hge : 2 ^ d.bits ≤ t.toNat) : pack d policy src = .err .malformedBuffer := by
  obtain rfl | rfl := hd <;> exact if_pos (List.any_eq_true.mpr ⟨t, ht, decide_eq_true hge⟩)

/-- A stream of the wrong shape does not pack (R102). -/
theorem pack_of_not_shape (h : ¬ shapeHolds 2 d.bits false l src) :
    pack d l.ctrl.ptail src = .err .malformedBuffer := by
  rw [shapeHolds_pack_iff, not_and_or] at h
  obtain h | h := h
  · push Not at h
    obtain ⟨hd, h⟩ := h
    by_cases hr : ∀ t ∈ src, t.toNat < 2 ^ d.bits
    · obtain ⟨hpolicy, hpart⟩ := h hr
      rw [hpolicy]
      exact pack_error_partial hpart
    · push Not at hr
      obtain ⟨t, ht, hge⟩ := hr
      exact pack_outOfRange hd ht hge
  · push Not at h
    obtain ⟨rfl, h3⟩ := h
    exact if_pos (by simpa [brokenTriples] using h3)

/-- PACK's law (R106). -/
theorem error?_packLaw : (fitting dstCap (pack d l.ctrl.ptail src)).error? = lawError 2 d.bits false dstCap l src := by
  by_cases hshape : shapeHolds 2 d.bits false l src
  · have hpackable : packable d l.ctrl.ptail src.length (byteOf src) := by
      obtain ⟨hsub, h3⟩ := shapeHolds_pack_iff.mp hshape
      refine ⟨fun hd => ⟨fun k hk => ?_, (hsub hd).2⟩, h3⟩
      rw [byteOf_eq_getElem src k hk]
      exact (hsub hd).1 _ (List.getElem_mem hk)
    obtain ⟨out, hpack, hlen, -⟩ := pack_of_packable (byteOf_eq_getElem src) hpackable
    have hres : packedLength d l.ctrl.ptail src.length = resultLength 2 d.bits false l src := by
      cases d with
      | d1 | d4 => rfl
      | d8 | d24 => cases l.ctrl.ptail <;> exact Nat.div_one _
    rw [hpack, Result.error?_fitting_ok, hlen, hres, lawError_of_shape hshape]
  · rw [pack_of_not_shape hshape, lawError_of_not_shape hshape]
    rfl

/-- DOWNSCALE24's law, which RESIZE with SHRINK = 1 runs too (R128, R158). -/
theorem error?_shrinkLaw (hop : op = 4 ∨ (op = 5 ∧ shrinks = true)) (hn : l.factor ≠ 0#32) :
    (shrinkLaw dstCap l src).error? = lawError op d.bits shrinks dstCap l src := by
  have hshape : shapeHolds op d.bits shrinks l src ↔ geometry src.length l.width.toNat l.factor.toNat := by
    rw [shapeHolds, if_pos hop]
  have hres : resultLength op d.bits shrinks l src = src.length / (l.factor.toNat * l.factor.toNat) := by
    obtain rfl | ⟨rfl, rfl⟩ := hop <;> rfl
  rw [shrinkLaw, Latch.rowPixels, Latch.scale]
  by_cases hgeom : geometry src.length l.width.toNat l.factor.toNat
  · have hpos : 1 ≤ l.factor.toNat := Nat.pos_of_ne_zero (mt factor_toNat_eq_zero.mp hn)
    rw [if_pos (rasterFits_iff.mpr hgeom), lawError_of_shape (hshape.mpr hgeom), pixelCount,
      geometry_length hpos hgeom, hres]
    split <;> rfl
  · rw [if_neg (mt rasterFits_iff.mp hgeom), lawError_of_not_shape (mt hshape.mp hgeom)]
    rfl

end

/-! ### The error of every word (R179, R180) -/

/-- `ErrorOf` of a legal word, by its opcode, DEPTH and SHRINK (R180). -/
def commandError (op d : Nat) (shrinks : Bool) (srcCap dstCap : Nat) (l : Latch) (src : List Byte) : Option ErrorKind :=
  if d ≠ 1 ∧ d ≠ 4 ∧ d ≠ 8 ∧ d ≠ 24 then some .unsupportedBitDepth
  else if (op = 4 ∨ (op = 5 ∧ shrinks = true)) ∧ d ≠ 24 then some .unsupportedOperation
  else if (op = 3 ∨ op = 4 ∨ op = 5) ∧ l.factor = 0#32 then some .badFactor
  else if srcCap < l.srclen.toNat then some .malformedBuffer
  else lawError op d shrinks dstCap l src

theorem errorOf_eq_commandError {l : Latch} (hlegal : legalWord l.cmd) (srcCap dstCap : Nat) (src : List Byte) :
    errorOf l srcCap dstCap src =
      commandError (opField l.cmd) (depthField l.cmd) (shrinkField l.cmd) srcCap dstCap l src := by
  rw [opField_eq, depthField_eq, shrinkField_eq]
  exact if_neg (not_not_intro hlegal)

/-- The common checks, made as R154 says from the opcode and SHRINK, and a law that reports its part of R180 report all
of it. -/
theorem error?_afterCommon_of_law (op : Nat) (shrinks : Bool) {raw srcCap dstCap : Nat} {l : Latch} {src : List Byte}
    {law : Depth → Result}
    (hlaw : ∀ d, (op = 3 ∨ op = 4 ∨ op = 5 → l.factor ≠ 0#32) →
      (law d).error? = lawError op d.bits shrinks dstCap l src) :
    (afterCommon (common (decide (op = 4 ∨ (op = 5 ∧ shrinks = true))) (decide (op = 3 ∨ op = 4 ∨ op = 5)) raw srcCap l)
      law).error? = commandError op raw shrinks srcCap dstCap l src := by
  simp only [Result.error?_afterCommon, commandError, decide_eq_true_eq]
  refine ite_congr rfl (fun _ => rfl) fun hdepth => ite_congr rfl (fun _ => rfl) fun _ =>
    ite_congr rfl (fun _ => rfl) fun hfactor => ite_congr rfl (fun _ => rfl) fun _ => ?_
  have hlaw (d : Depth) := hlaw d fun hs hzero => hfactor ⟨hs, hzero⟩
  obtain rfl | rfl | rfl | rfl : raw = 1 ∨ raw = 4 ∨ raw = 8 ∨ raw = 24 := by omega
  · exact hlaw .d1
  · exact hlaw .d4
  · exact hlaw .d8
  · exact hlaw .d24

/-- Each command's function reports the first error that applies to its fields, its operands and the source. -/
theorem error?_commandOf (i : Instr) (srcCap dstCap : Nat) (l : Latch) (src : List Byte) :
    (commandOf i srcCap dstCap l src).error? = commandError i.opcode i.depth i.shrink srcCap dstCap l src := by
  cases i with
  | unpack raw => exact error?_afterCommon_of_law 1 false fun _ _ => error?_unpackLaw
  | pack raw => exact error?_afterCommon_of_law 2 false fun _ _ => error?_packLaw
  | upscale raw => exact error?_afterCommon_of_law 3 false fun _ _ => error?_upscaleLaw (.inl rfl)
  | downscale24 raw =>
    exact error?_afterCommon_of_law 4 false fun _ hn => error?_shrinkLaw (.inl rfl) (hn (by decide))
  | resize raw shrinks =>
    cases shrinks with
    | false =>
      rw [commandOf, resizeCommand_false]
      exact error?_afterCommon_of_law 5 false fun _ _ => error?_upscaleLaw (.inr rfl)
    | true =>
      rw [commandOf, resizeCommand_true]
      exact error?_afterCommon_of_law 5 true fun _ hn => error?_shrinkLaw (.inr ⟨rfl, rfl⟩) (hn (by decide))
  | flip raw => exact error?_afterCommon_of_law 6 false fun _ _ => error?_flipLaw

/-- The result of every latched word, legal or not, has the error of R180. -/
theorem error?_resultOf (srcCap dstCap : Nat) (l : Latch) (src : List Byte) :
    (resultOf srcCap dstCap l src).error? = errorOf l srcCap dstCap src := by
  rw [resultOf]
  have hlegal := decoderAcceptsExactlyLegalWords l.cmd
  cases hd : decode l.cmd with
  | command i =>
    obtain ⟨-, -, hop, hdepth, hshrink⟩ := decode_eq_command.mp hd
    rw [errorOf_eq_commandError (hlegal.mp ⟨i, hd⟩), hop, hdepth, hshrink]
    exact error?_commandOf i srcCap dstCap l src
  | rejected why =>
    have hillegal : ¬ legalWord l.cmd := fun h => by
      obtain ⟨i, hi⟩ := hlegal.mpr h
      cases hd.symm.trans hi
    exact (if_pos hillegal).symm

/-! ### A Busy engine completes (R152, R201) -/

/-- `t` is a state after the command of latch `l`, in flight in `s`, has completed: Idle with DONE = 1, CMD and SRC as
in `s`, and the error of R180. -/
def State.EndsAt (s : State) (l : Latch) (t : State) : Prop :=
  t.eng = .idle ∧ t.done = true ∧ t.cmd = s.cmd ∧ t.src = s.src ∧ t.err = errorOf l s.srcCap s.dstCap (s.source l)

/-- With the engine next, the command in flight completes. -/
theorem step_completes {s : State} {l : Latch} {rest : List Turn} (hnext : s.EngineNext rest) (hl : s.Running l) :
    ∃ t, step s = .next t ∧ s.EndsAt l t := by
  refine ⟨_, (step_engineNext hnext).trans (engineTurn_running (s := s.withTurns rest) hnext.1 hl),
    State.complete_eng _ _, State.complete_done _ _, ?_, State.complete_src _ _, ?_⟩
  · exact ((s.withTurns rest).sameOutside_complete _).2.1
  · exact (State.err_complete _ _).trans (error?_resultOf _ _ _ _)

/-- A host access to the region is answered, and the command stays in flight with the same end (R50, R196). -/
theorem step_access_keeps_command {s : State} {l : Latch} {a : Nat} {rest : List Turn} (hr : s.rst = false)
    (hl : s.Running l) (ha : a < 0x400000) (hacc : s.AccessNext a rest) :
    ∃ u, step s = .next u ∧ u.rst = false ∧ u.Running l ∧ u.turns = rest ∧ ∀ t, u.EndsAt l t → s.EndsAt l t := by
  obtain ⟨u, hst⟩ : ∃ u, step s = .next u := by
    obtain ⟨n, hturns⟩ := hacc
    obtain ⟨serve, he⟩ := step_access hturns
    rw [he]
    by_contra hstop
    obtain hr' | ha' := hostAccess_stops_iff.mp hstop
    · exact Bool.false_ne_true (hr.symm.trans hr')
    · omega
  refine ⟨u, hst, ?_⟩
  rw [step_access_running hl hacc hst]
  exact ⟨hr, hl, rfl, fun _ ht => ht⟩

/-- A run may begin with a step. -/
theorem run_after_step {s u t : State} {k : Nat} (hst : step s = .next u)
    (hrun : Host.Core.run Sys2Proof.core k u = .next t) : Host.Core.run Sys2Proof.core (k + 1) s = .next t :=
  (run_succ Sys2Proof.core k s u hst).trans hrun

/-- Settles O11, by induction on the turns: a host access leaves the command in flight as it is, and the first turn of
the engine, or the end of the list, completes it. -/
theorem busyEngineCompletesWhateverTheHostDoes : Obligations.BusyEngineCompletesWhateverTheHostDoes := by
  intro s l hr hl hall
  suffices ∃ k t, k ≤ s.turns.length + 1 ∧ Host.Core.run Sys2Proof.core k s = .next t ∧ s.EndsAt l t from this
  generalize hturns : s.turns = turns at hall ⊢
  induction turns generalizing s with
  | nil =>
    obtain ⟨t, hst, ht⟩ := step_completes ⟨hr, .inr ⟨hturns, rfl⟩⟩ hl
    exact ⟨1, t, Nat.le_refl _, run_after_step hst rfl, ht⟩
  | cons turn rest ih =>
    obtain ⟨hturn, hrest⟩ := List.forall_mem_cons.mp hall
    have access {a : Nat} (ha : a < 0x400000) (hacc : s.AccessNext a rest) :
        ∃ k t, k ≤ rest.length + 1 + 1 ∧ Host.Core.run Sys2Proof.core k s = .next t ∧ s.EndsAt l t := by
      obtain ⟨u, hst, hru, hlu, hturnsu, hends⟩ := step_access_keeps_command hr hl ha hacc
      obtain ⟨k, t, hk, hrun, ht⟩ := ih u hru hlu hturnsu hrest
      exact ⟨k + 1, t, Nat.succ_le_succ hk, run_after_step hst hrun, hends t ht⟩
    obtain ⟨a, n, rfl, ha⟩ | ⟨a, n, v, rfl, ha⟩ | rfl := hturn
    · exact access ha ⟨n, .inl hturns⟩
    · exact access ha ⟨n, .inr ⟨v, hturns⟩⟩
    · obtain ⟨t, hst, ht⟩ := step_completes ⟨hr, .inl hturns⟩ hl
      exact ⟨1, t, Nat.succ_le_succ (Nat.zero_le _), run_after_step hst rfl, ht⟩

end Sys2Proof.Machine
end

section
/-! PROOFS. The errors (60_exceptions.md): what an error completion leaves, which error a step and a command report, when
each of the errors of the common checks is reported, and that a failed command fails again. -/

namespace Sys2Proof.Machine

/-! ### Illegal words and the first error (R171, R180) -/

/-- The function of a word that is not legal is IllegalCommand (R154, R171). -/
theorem resultOf_illegal {l : Latch} (h : ¬ legalWord l.cmd) (srcCap dstCap : Nat) (src : List Byte) :
    resultOf srcCap dstCap l src = .err .illegalCommand := by
  rw [resultOf]
  cases hd : decode l.cmd with
  | command i => exact absurd ((decoderAcceptsExactlyLegalWords l.cmd).mp ⟨i, hd⟩) h
  | rejected why => rfl

/-- Settles O7: the step completes with the result of the latched word, which is IllegalCommand. -/
theorem illegalWordCompletesWithIllegalCommand : Obligations.IllegalWordCompletesWithIllegalCommand := by
  intro s l rest hnext hl hillegal
  refine ⟨(s.withTurns rest).completeErr .illegalCommand, ?_, State.completeErr_failedWith _ _, rfl, rfl⟩
  rw [step_engineNext hnext, engineTurn_running (s := s.withTurns rest) hnext.1 hl, resultOf_illegal hillegal,
    State.complete_err]

/-- Settles O20: every completion ends with the error of R180. -/
theorem completionReportsTheFirstErrorThatApplies : Obligations.CompletionReportsTheFirstErrorThatApplies := by
  intro s l rest hnext hl
  obtain ⟨t, hst, -, -, -, -, herr⟩ := step_completes hnext hl
  exact ⟨t, hst, herr⟩

/-! ### A command that ends in an error (R177, R178) -/

/-- A command that ends in error `k` has it from its function, and ends by the error completion (R153). -/
theorem exec_failed {s t : State} {l : Latch} {i : Instr} {k : ErrorKind} (hl : s.Running l)
    (hst : exec i s = .next t) (herr : t.err = some k) :
    commandOf i s.srcCap s.dstCap l (s.source l) = .err k ∧ t = s.completeErr k := by
  rw [exec_running hl] at hst
  cases hst
  cases hres : commandOf i s.srcCap s.dstCap l (s.source l) with
  | ok out => simp [hres] at herr
  | err k' =>
    rw [hres] at herr
    cases herr
    exact ⟨rfl, rfl⟩

/-- Settles O21: an error is reported by the error completion alone. -/
theorem anErrorRecordsOnlyItsCode : Obligations.AnErrorRecordsOnlyItsCode := by
  intro s t l i k hl hst herr
  obtain ⟨-, rfl⟩ := exec_failed hl hst herr
  exact ⟨s.completeErr_failedWith k, rfl⟩

/-- The registers keep a failed command's operands, so accepting its word again gives its latch (R178). -/
theorem State.capture_completeErr {s : State} {l : Latch} (hl : s.Running l) (hagree : s.LatchAgrees) (k : ErrorKind) :
    (s.completeErr k).capture l.cmd = l := by
  obtain ⟨hcapture, -, -, -⟩ := hagree l hl
  rw [hcapture]
  rfl

/-- Settles O25: the second run has the latch, the capacities and the source of the first. -/
theorem retryGivesTheSameError : Obligations.RetryGivesTheSameError := by
  intro s t l i k hl hagree hst herr
  obtain ⟨hres, rfl⟩ := exec_failed hl hst herr
  have hretry : ((s.completeErr k).accept l.cmd).Running l :=
    congrArg Engine.busy (State.capture_completeErr hl hagree k)
  refine ⟨_, exec_running hretry i, ?_⟩
  rw [State.err_complete]
  exact congrArg Result.error? hres

/-! ### When each error of the common checks is reported (R172, R173, R175, R179) -/

theorem ErrorKind.code_inj {k k' : ErrorKind} : k.code = k'.code ↔ k = k' := by
  cases k <;> cases k' <;> decide

theorem ErrorKind.code_ne_zero (k : ErrorKind) : k.code ≠ 0 := by cases k <;> decide

/-- STATUS.ERR holds the code of the error recorded, and of no other (R170). -/
theorem State.errCode_eq_code {s : State} {k : ErrorKind} : s.errCode = k.code ↔ s.err = some k := by
  rw [State.errCode]
  cases s.err with
  | none => simpa using k.code_ne_zero.symm
  | some k' => simpa using ErrorKind.code_inj

/-- A command in flight completes with the error that its fields, its operands and the source give (R180). -/
theorem exec_reports {s : State} {l : Latch} (hl : s.Running l) (i : Instr) :
    ∃ t, exec i s = .next t ∧ ∀ k : ErrorKind, t.errCode = k.code ↔
      commandError i.opcode i.depth i.shrink s.srcCap s.dstCap l (s.source l) = some k := by
  refine ⟨_, exec_running hl i, fun k => ?_⟩
  rw [State.errCode_eq_code, State.err_complete, error?_commandOf]

section
variable {op d srcCap dstCap : Nat} {shrinks : Bool} {l : Latch} {src : List Byte}

/-- After the common checks only the shape and the length of the result are left to fail (R174, R176). -/
theorem lawError_ne {k : ErrorKind} (hmalformed : k ≠ .malformedBuffer) (hoverflow : k ≠ .bufferOverflow) :
    lawError op d shrinks dstCap l src ≠ some k := by
  simp [lawError, ite_eq_iff, hmalformed.symm, hoverflow.symm]

/-- The depth is checked first. -/
theorem commandError_unsupportedBitDepth :
    commandError op d shrinks srcCap dstCap l src = some .unsupportedBitDepth ↔ d ≠ 1 ∧ d ≠ 4 ∧ d ≠ 8 ∧ d ≠ 24 := by
  have hlaw : lawError op d shrinks dstCap l src ≠ some .unsupportedBitDepth := lawError_ne (by decide) (by decide)
  simp [commandError, ite_eq_iff, hlaw]

/-- A supported depth is checked against the operation next. -/
theorem commandError_unsupportedOperation :
    commandError op d shrinks srcCap dstCap l src = some .unsupportedOperation ↔
      (d = 1 ∨ d = 4 ∨ d = 8) ∧ (op = 4 ∨ (op = 5 ∧ shrinks = true)) := by
  have hlaw : lawError op d shrinks dstCap l src ≠ some .unsupportedOperation := lawError_ne (by decide) (by decide)
  simp only [commandError, ite_eq_iff, hlaw, Option.some.injEq, reduceCtorEq, and_false, and_true, false_or, or_false]
  grind

/-- The factor is checked once the depth is one the operation supports. -/
theorem commandError_badFactor :
    commandError op d shrinks srcCap dstCap l src = some .badFactor ↔
      l.factor = 0#32 ∧ (op = 3 ∨ op = 4 ∨ op = 5) ∧ (d = 1 ∨ d = 4 ∨ d = 8 ∨ d = 24) ∧
        (op = 4 ∨ (op = 5 ∧ shrinks = true) → d = 24) := by
  have hlaw : lawError op d shrinks dstCap l src ≠ some .badFactor := lawError_ne (by decide) (by decide)
  simp only [commandError, ite_eq_iff, hlaw, Option.some.injEq, reduceCtorEq, and_false, and_true, false_or, or_false]
  grind

end

/-- The two shrinking commands (R173). -/
theorem shrinking_iff {i : Instr} {raw : Nat} :
    i.depth = raw ∧ (i.opcode = 4 ∨ (i.opcode = 5 ∧ i.shrink = true)) ↔ i = .downscale24 raw ∨ i = .resize raw true := by
  cases i <;> simp [Instr.depth, Instr.opcode, Instr.shrink]

/-- The two growing commands (R121, R158). -/
theorem growing_iff {i : Instr} {raw : Nat} :
    i.depth = raw ∧ (i.opcode = 3 ∨ (i.opcode = 5 ∧ i.shrink = false)) ↔ i = .upscale raw ∨ i = .resize raw false := by
  cases i <;> simp [Instr.depth, Instr.opcode, Instr.shrink]

/-- Settles O22: the first of the common checks. -/
theorem unsupportedDepthFailsEveryCommand : Obligations.UnsupportedDepthFailsEveryCommand := by
  intro s l i hl
  obtain ⟨t, hst, hcode⟩ := exec_reports hl i
  exact ⟨t, hst, (hcode .unsupportedBitDepth).trans commandError_unsupportedBitDepth⟩

/-- Settles O23: the second of the common checks, which the shrinking commands make. -/
theorem unsupportedOperationInExactlyTwoCases : Obligations.UnsupportedOperationInExactlyTwoCases := by
  intro s l i hl
  obtain ⟨t, hst, hcode⟩ := exec_reports hl i
  refine ⟨t, hst, (hcode .unsupportedOperation).trans ?_⟩
  simp only [commandError_unsupportedOperation, ← shrinking_iff]
  constructor
  · rintro ⟨hdepth, hop⟩
    exact ⟨i.depth, hdepth, rfl, hop⟩
  · rintro ⟨raw, hraw, rfl, hop⟩
    exact ⟨hraw, hop⟩

/-- A depth is selected exactly by the four supported values (R72). -/
theorem Depth.exists_ofRaw_iff {raw : Nat} :
    (∃ d, Depth.ofRaw raw = some d) ↔ raw = 1 ∨ raw = 4 ∨ raw = 8 ∨ raw = 24 := by
  rw [← Option.ne_none_iff_exists', ne_eq, Depth.ofRaw_eq_none]
  omega

/-- Settles O24: the third of the common checks. A command that scales either grows, at any supported depth, or shrinks,
at depth 24. -/
theorem badFactorExactlyForAZeroFactor : Obligations.BadFactorExactlyForAZeroFactor := by
  intro s l i hl
  obtain ⟨t, hst, hcode⟩ := exec_reports hl i
  refine ⟨t, hst, (hcode .badFactor).trans ?_⟩
  simp only [commandError_badFactor, ← shrinking_iff, ← growing_iff, exists_and_right, Depth.exists_ofRaw_iff]
  refine and_congr_right fun _ => ?_
  constructor
  · rintro ⟨hscales, hdepth, hshrinks⟩
    by_cases hop : i.opcode = 4 ∨ (i.opcode = 5 ∧ i.shrink = true)
    · exact .inr ⟨hshrinks hop, hop⟩
    · refine .inl ⟨i.depth, hdepth, rfl, ?_⟩
      grind
  · rintro (⟨raw, hdepth, rfl, hop⟩ | ⟨hdepth, hop⟩)
    · exact ⟨by omega, hdepth, by grind⟩
    · exact ⟨by omega, .inr (.inr (.inr hdepth)), fun _ => hdepth⟩

end Sys2Proof.Machine
end

section
/-! PROOFS. The reset input (70_reset_and_hazards.md, section 1): what asserting and releasing it does, and what each kind
of turn does while it is asserted. -/

namespace Sys2Proof.Machine

/-! ### The reset input takes a level (R190 to R192) -/

/-- An assertion, and the release of an input that is asserted, reset the block whatever it was doing. -/
theorem State.driveReset_eq_applyReset {s : State} {level : Bool} (h : level = true ∨ s.rst = true) :
    s.driveReset level = s.applyReset level := by
  have hnot : ¬ (level = false ∧ s.rst = false) := by rcases h with h | h <;> simp [h]
  exact if_neg hnot

/-! ### The turns taken while the reset input is asserted (R190, R191) -/

/-- The engine's turn changes nothing but the list of turns. -/
theorem step_engine_inReset {s : State} {rest : List Turn} (hr : s.rst = true) (hturns : s.turns = .engine :: rest) :
    step s = .next (s.withTurns rest) :=
  calc step s = engineTurn (s.withTurns rest) := by simp [step, hturns]
    _ = .next (s.withTurns rest) := engineTurn_reset (s := s.withTurns rest) hr

/-- A read and a write are both refused, legal or not. -/
theorem step_access_inReset {s : State} {a : Nat} {rest : List Turn} (hr : s.rst = true) (hacc : s.AccessNext a rest) :
    step s = .refused .accessDuringReset := by
  obtain ⟨n, hread | ⟨v, hwrite⟩⟩ := hacc
  · rw [step_read hread]
    exact hostAccess_reset (s := s.withTurns rest) hr a n _
  · rw [step_write hwrite]
    exact hostAccess_reset (s := s.withTurns rest) hr a n _

/-- Settles O41, by the kind of turn: the reset input's, the engine's, a host access. -/
theorem resetAbandonsTheCommand : Obligations.ResetAbandonsTheCommand := by
  refine fun s rest => ⟨fun level hturns hlevel => ?_, step_engine_inReset, fun _ => step_access_inReset⟩
  have hstep : step s = .next ((s.withTurns rest).applyReset level) := by
    rw [step_reset hturns, State.driveReset_eq_applyReset (s := s.withTurns rest) hlevel]
  exact ⟨_, hstep, State.applyReset_atResetValues _ level, rfl, rfl, rfl, rfl, Memory.read_drawn s.draws,
    Memory.read_drawn (s.draws + 1)⟩

end Sys2Proof.Machine
end
